-- ==== Sys2Proof/Word.lean ====
section
/-!
DEFINITION. The widths of the CHIP-8 core: 8-bit bytes and registers, 16-bit words, 12-bit address
immediates, register numbers (00_scope.md R5, 30_encoding.md R51).
-/
namespace Sys2Proof

/-- A byte of memory, a general register, a timer (R10, R20, R24). -/
abbrev Byte := BitVec 8

/-- An instruction word, PC, I, IR, a stack entry (R15, R18, R21, R22, R50). -/
abbrev Word := BitVec 16

/-- The address immediate NNN (R51). -/
abbrev Addr12 := BitVec 12

/-- A register number 0..15, the value of a field X or Y (R10). -/
abbrev Reg := Fin 16

end Sys2Proof
end

