-- ==== Sys2Proof/Syntax.lean ====
section
/-!
DEFINITION. The instructions: one constructor per row of spec/opcode_table.json, in the order of the
table of 30_encoding.md R55. Operands are the fields of R51 that the instruction uses.
-/
namespace Sys2Proof

/-- The 34 instructions (30_encoding.md R55, R56). -/
inductive Instr
  /-- CLS (R130) -/
  | cls
  /-- RET (R90) -/
  | ret
  /-- JP addr (R91) -/
  | jpAddr (nnn : Addr12)
  /-- CALL addr (R92) -/
  | callAddr (nnn : Addr12)
  /-- SE Vx,byte (R93) -/
  | seVxByte (x : Reg) (kk : Byte)
  /-- SNE Vx,byte (R94) -/
  | sneVxByte (x : Reg) (kk : Byte)
  /-- SE Vx,Vy (R95) -/
  | seVxVy (x y : Reg)
  /-- SNE Vx,Vy (R96) -/
  | sneVxVy (x y : Reg)
  /-- LD Vx,byte (R100) -/
  | ldVxByte (x : Reg) (kk : Byte)
  /-- ADD Vx,byte (R101) -/
  | addVxByte (x : Reg) (kk : Byte)
  /-- LD Vx,Vy (R102) -/
  | ldVxVy (x y : Reg)
  /-- OR Vx,Vy (R103) -/
  | orVxVy (x y : Reg)
  /-- AND Vx,Vy (R104) -/
  | andVxVy (x y : Reg)
  /-- XOR Vx,Vy (R105) -/
  | xorVxVy (x y : Reg)
  /-- ADD Vx,Vy (R106) -/
  | addVxVy (x y : Reg)
  /-- SUB Vx,Vy (R107) -/
  | subVxVy (x y : Reg)
  /-- SHR Vx; the field Y is not used (R108) -/
  | shrVx (x : Reg)
  /-- SUBN Vx,Vy (R109) -/
  | subnVxVy (x y : Reg)
  /-- SHL Vx; the field Y is not used (R110) -/
  | shlVx (x : Reg)
  /-- LD I,addr (R120) -/
  | ldIAddr (nnn : Addr12)
  /-- JP V0,addr (R97) -/
  | jpV0Addr (nnn : Addr12)
  /-- RND Vx,byte (R111) -/
  | rndVxByte (x : Reg) (kk : Byte)
  /-- DRW Vx,Vy,n with n rows (R131) -/
  | drwVxVyN (x y : Reg) (n : Nat)
  /-- SKP Vx (R140) -/
  | skpVx (x : Reg)
  /-- SKNP Vx (R141) -/
  | sknpVx (x : Reg)
  /-- LD Vx,DT (R142) -/
  | ldVxDt (x : Reg)
  /-- LD Vx,K (R143) -/
  | ldVxK (x : Reg)
  /-- LD DT,Vx (R144) -/
  | ldDtVx (x : Reg)
  /-- LD ST,Vx (R145) -/
  | ldStVx (x : Reg)
  /-- ADD I,Vx (R121) -/
  | addIVx (x : Reg)
  /-- LD F,Vx (R122) -/
  | ldFVx (x : Reg)
  /-- LD B,Vx (R123) -/
  | ldBVx (x : Reg)
  /-- LD [I],Vx (R124) -/
  | ldMemVx (x : Reg)
  /-- LD Vx,[I] (R125) -/
  | ldVxMem (x : Reg)
deriving DecidableEq, Repr

end Sys2Proof
end

