-- ==== Sys2Proof/WellFormed.lean ====
section
/-!
DEFINITION. Well-formed instructions. The operand types already hold X, Y, KK and NNN to their widths
(30_encoding.md R51); the one operand with a wider type is the row count of DRW, "a 4-bit count 0..15"
(R53), so it is the one that is checked (DESIGN CHOICE, log 24: safe).
-/
namespace Sys2Proof

/-- The sprite height of DRW fits the 4-bit field N (R53). -/
def rowCountFits (n : Nat) : Bool := decide (n ≤ 15)

/-- Every operand fits the field that encodes it (R51, R53). -/
def Instr.wellFormed : Instr → Bool
  | .drwVxVyN _ _ n => rowCountFits n
  | .cls | .ret => true
  | .jpAddr _ | .callAddr _ | .ldIAddr _ | .jpV0Addr _ => true
  | .seVxByte _ _ | .sneVxByte _ _ | .ldVxByte _ _ | .addVxByte _ _ | .rndVxByte _ _ => true
  | .seVxVy _ _ | .sneVxVy _ _ | .ldVxVy _ _ | .orVxVy _ _ | .andVxVy _ _ | .xorVxVy _ _ => true
  | .addVxVy _ _ | .subVxVy _ _ | .subnVxVy _ _ | .shrVx _ | .shlVx _ => true
  | .skpVx _ | .sknpVx _ | .ldVxDt _ | .ldVxK _ | .ldDtVx _ | .ldStVx _ => true
  | .addIVx _ | .ldFVx _ | .ldBVx _ | .ldMemVx _ | .ldVxMem _ => true

end Sys2Proof
end

