-- ==== Sys2Proof/Decode.lean ====
section
/-!
DEFINITION. Decoding, total on any word and on any bytes (30_encoding.md R50 to R58), the opcode table
of R55 as data, and the encoder. The numeric assignment is R55's (log 4); the bits a family does not
inspect are don't-care (R54, log 7).
-/
namespace Sys2Proof

/-- Why the decoder answers no instruction. Neither is a fault: an unknown word runs as a no-op (R58, R76). -/
inductive Reject
  /-- A word that selects no row of the table (R58). -/
  | unknownWord (w : Word)
  /-- Fewer than the two bytes of an instruction (R50). -/
  | shortInput
deriving DecidableEq, Repr

/-- FAM = w[15:12] (R51). -/
def famOf (w : Word) : BitVec 4 := w.extractLsb' 12 4

/-- X = w[11:8] (R51). -/
def xOf (w : Word) : Reg := (w.extractLsb' 8 4).toFin

/-- Y = w[7:4] (R51). -/
def yOf (w : Word) : Reg := (w.extractLsb' 4 4).toFin

/-- N = w[3:0] (R51). -/
def nOf (w : Word) : BitVec 4 := w.extractLsb' 0 4

/-- KK = w[7:0] (R51). -/
def kkOf (w : Word) : Byte := w.extractLsb' 0 8

/-- NNN = w[11:0] (R51). -/
def nnnOf (w : Word) : Addr12 := w.extractLsb' 0 12

/-- Family 0: the key is N; X and Y are not inspected (R54). -/
def decodeFamily0 (w : Word) : Except Reject Instr :=
  match nOf w with
  | 0x0#4 => .ok .cls
  | 0xE#4 => .ok .ret
  | _ => .error (.unknownWord w)

/-- Family 8: the key is N (R54). -/
def decodeFamily8 (w : Word) : Except Reject Instr :=
  match nOf w with
  | 0x0#4 => .ok (.ldVxVy (xOf w) (yOf w))
  | 0x1#4 => .ok (.orVxVy (xOf w) (yOf w))
  | 0x2#4 => .ok (.andVxVy (xOf w) (yOf w))
  | 0x3#4 => .ok (.xorVxVy (xOf w) (yOf w))
  | 0x4#4 => .ok (.addVxVy (xOf w) (yOf w))
  | 0x5#4 => .ok (.subVxVy (xOf w) (yOf w))
  | 0x6#4 => .ok (.shrVx (xOf w))
  | 0x7#4 => .ok (.subnVxVy (xOf w) (yOf w))
  | 0xE#4 => .ok (.shlVx (xOf w))
  | _ => .error (.unknownWord w)

/-- Family E: the key is N; Y is not inspected (R54). -/
def decodeFamilyE (w : Word) : Except Reject Instr :=
  match nOf w with
  | 0xE#4 => .ok (.skpVx (xOf w))
  | 0x1#4 => .ok (.sknpVx (xOf w))
  | _ => .error (.unknownWord w)

/-- Family F: the key is KK (R54). -/
def decodeFamilyF (w : Word) : Except Reject Instr :=
  match kkOf w with
  | 0x07#8 => .ok (.ldVxDt (xOf w))
  | 0x0A#8 => .ok (.ldVxK (xOf w))
  | 0x15#8 => .ok (.ldDtVx (xOf w))
  | 0x18#8 => .ok (.ldStVx (xOf w))
  | 0x1E#8 => .ok (.addIVx (xOf w))
  | 0x29#8 => .ok (.ldFVx (xOf w))
  | 0x33#8 => .ok (.ldBVx (xOf w))
  | 0x55#8 => .ok (.ldMemVx (xOf w))
  | 0x65#8 => .ok (.ldVxMem (xOf w))
  | _ => .error (.unknownWord w)

/-- The two-level decoder: the family, then the key of families 0, 8, E and F (R54, R57, R73). -/
def decode (w : Word) : Except Reject Instr :=
  match famOf w with
  | 0x0#4 => decodeFamily0 w
  | 0x1#4 => .ok (.jpAddr (nnnOf w))
  | 0x2#4 => .ok (.callAddr (nnnOf w))
  | 0x3#4 => .ok (.seVxByte (xOf w) (kkOf w))
  | 0x4#4 => .ok (.sneVxByte (xOf w) (kkOf w))
  | 0x5#4 => .ok (.seVxVy (xOf w) (yOf w))
  | 0x6#4 => .ok (.ldVxByte (xOf w) (kkOf w))
  | 0x7#4 => .ok (.addVxByte (xOf w) (kkOf w))
  | 0x8#4 => decodeFamily8 w
  | 0x9#4 => .ok (.sneVxVy (xOf w) (yOf w))
  | 0xA#4 => .ok (.ldIAddr (nnnOf w))
  | 0xB#4 => .ok (.jpV0Addr (nnnOf w))
  | 0xC#4 => .ok (.rndVxByte (xOf w) (kkOf w))
  | 0xD#4 => .ok (.drwVxVyN (xOf w) (yOf w) (nOf w).toNat)
  | 0xE#4 => decodeFamilyE w
  | _ => decodeFamilyF w

/-- The instruction word of two bytes, the first the high byte (R35). -/
def wordOfBytes (hi lo : Byte) : Word := hi ++ lo

/-- The high byte of a word, the one at the lower address (R35). -/
def highByte (w : Word) : Byte := w.extractLsb' 8 8

/-- The low byte of a word (R35). -/
def lowByte (w : Word) : Byte := w.extractLsb' 0 8

/-- The bytes of a word in the order of their addresses (R35). -/
def bytesOfWord (w : Word) : List Byte := [highByte w, lowByte w]

/-- Decode the instruction at the head of a list of bytes, with the bytes that follow it (R35, R50). -/
def decodeBytes : List Byte → Except Reject (Instr × List Byte)
  | hi :: lo :: rest =>
    match decode (wordOfBytes hi lo) with
    | .ok i => .ok (i, rest)
    | .error e => .error e
  | _ => .error .shortInput

/-- The word that the host's number `w` of `nbits` bits stands for: one 16-bit word, bits above `nbits` zero. -/
def tableWord (nbits w : Nat) : Word := BitVec.ofNat 16 (w % 2 ^ nbits)

/-- The instruction the decoder reads from a word numbered as spec/opcode_table.json numbers it. -/
def decodeTableWord (nbits w : Nat) : Option Instr :=
  match decodeBytes (bytesOfWord (tableWord nbits w)) with
  | .ok (i, _) => some i
  | .error _ => none

/-- One row of the table of R55: `w` selects it when `w and mask = pattern`; `build` reads the fields. -/
structure OpcodeRow where
  pattern : Word
  mask : Word
  build : Word → Instr

/-- Rows 1 to 10 of the table of R55. -/
def opcodeRowsA : List OpcodeRow :=
  [ ⟨0x0000, 0xF00F, fun _ => .cls⟩,
    ⟨0x000E, 0xF00F, fun _ => .ret⟩,
    ⟨0x1000, 0xF000, fun w => .jpAddr (nnnOf w)⟩,
    ⟨0x2000, 0xF000, fun w => .callAddr (nnnOf w)⟩,
    ⟨0x3000, 0xF000, fun w => .seVxByte (xOf w) (kkOf w)⟩,
    ⟨0x4000, 0xF000, fun w => .sneVxByte (xOf w) (kkOf w)⟩,
    ⟨0x5000, 0xF000, fun w => .seVxVy (xOf w) (yOf w)⟩,
    ⟨0x9000, 0xF000, fun w => .sneVxVy (xOf w) (yOf w)⟩,
    ⟨0x6000, 0xF000, fun w => .ldVxByte (xOf w) (kkOf w)⟩,
    ⟨0x7000, 0xF000, fun w => .addVxByte (xOf w) (kkOf w)⟩ ]

/-- Rows 11 to 22 of the table of R55. -/
def opcodeRowsB : List OpcodeRow :=
  [ ⟨0x8000, 0xF00F, fun w => .ldVxVy (xOf w) (yOf w)⟩,
    ⟨0x8001, 0xF00F, fun w => .orVxVy (xOf w) (yOf w)⟩,
    ⟨0x8002, 0xF00F, fun w => .andVxVy (xOf w) (yOf w)⟩,
    ⟨0x8003, 0xF00F, fun w => .xorVxVy (xOf w) (yOf w)⟩,
    ⟨0x8004, 0xF00F, fun w => .addVxVy (xOf w) (yOf w)⟩,
    ⟨0x8005, 0xF00F, fun w => .subVxVy (xOf w) (yOf w)⟩,
    ⟨0x8006, 0xF00F, fun w => .shrVx (xOf w)⟩,
    ⟨0x8007, 0xF00F, fun w => .subnVxVy (xOf w) (yOf w)⟩,
    ⟨0x800E, 0xF00F, fun w => .shlVx (xOf w)⟩,
    ⟨0xA000, 0xF000, fun w => .ldIAddr (nnnOf w)⟩,
    ⟨0xB000, 0xF000, fun w => .jpV0Addr (nnnOf w)⟩,
    ⟨0xC000, 0xF000, fun w => .rndVxByte (xOf w) (kkOf w)⟩ ]

/-- Rows 23 to 34 of the table of R55. -/
def opcodeRowsC : List OpcodeRow :=
  [ ⟨0xD000, 0xF000, fun w => .drwVxVyN (xOf w) (yOf w) (nOf w).toNat⟩,
    ⟨0xE00E, 0xF00F, fun w => .skpVx (xOf w)⟩,
    ⟨0xE001, 0xF00F, fun w => .sknpVx (xOf w)⟩,
    ⟨0xF007, 0xF0FF, fun w => .ldVxDt (xOf w)⟩,
    ⟨0xF00A, 0xF0FF, fun w => .ldVxK (xOf w)⟩,
    ⟨0xF015, 0xF0FF, fun w => .ldDtVx (xOf w)⟩,
    ⟨0xF018, 0xF0FF, fun w => .ldStVx (xOf w)⟩,
    ⟨0xF01E, 0xF0FF, fun w => .addIVx (xOf w)⟩,
    ⟨0xF029, 0xF0FF, fun w => .ldFVx (xOf w)⟩,
    ⟨0xF033, 0xF0FF, fun w => .ldBVx (xOf w)⟩,
    ⟨0xF055, 0xF0FF, fun w => .ldMemVx (xOf w)⟩,
    ⟨0xF065, 0xF0FF, fun w => .ldVxMem (xOf w)⟩ ]

/-- The table of R55, 34 rows. -/
def opcodeTable : List OpcodeRow := opcodeRowsA ++ opcodeRowsB ++ opcodeRowsC

/-- A word selects a row (R55). -/
def OpcodeRow.selects (r : OpcodeRow) (w : Word) : Bool := w &&& r.mask == r.pattern

/-- The decoder that only looks the word up in the table of R55: the second reading of the encoding. -/
def decodeByTable (w : Word) : Except Reject Instr :=
  match opcodeTable.find? (·.selects w) with
  | some r => .ok (r.build w)
  | none => .error (.unknownWord w)

/-- A word of format A: a family and NNN (R52). -/
def wordA (fam : BitVec 4) (nnn : Addr12) : Word := fam ++ nnn

/-- A word of format XK: a family, X and KK (R52); also of format XF with KK the key. -/
def wordXK (fam : BitVec 4) (x : Reg) (kk : Byte) : Word := fam ++ (BitVec.ofFin x : BitVec 4) ++ kk

/-- A word of format XY or XYN: a family, X, Y and the low nibble (R52). -/
def wordXYN (fam : BitVec 4) (x y : Reg) (n : BitVec 4) : Word :=
  fam ++ (BitVec.ofFin x : BitVec 4) ++ (BitVec.ofFin y : BitVec 4) ++ n

/-- The word of an instruction; bits the decoder does not inspect take the values of R55's column
"canonical", and Y of SHR and SHL is 0 (DESIGN CHOICE, log 23: safe). -/
def encode : Instr → Word
  | .cls => 0x00E0
  | .ret => 0x00EE
  | .jpAddr nnn => wordA 0x1 nnn
  | .callAddr nnn => wordA 0x2 nnn
  | .seVxByte x kk => wordXK 0x3 x kk
  | .sneVxByte x kk => wordXK 0x4 x kk
  | .seVxVy x y => wordXYN 0x5 x y 0x0
  | .sneVxVy x y => wordXYN 0x9 x y 0x0
  | .ldVxByte x kk => wordXK 0x6 x kk
  | .addVxByte x kk => wordXK 0x7 x kk
  | .ldVxVy x y => wordXYN 0x8 x y 0x0
  | .orVxVy x y => wordXYN 0x8 x y 0x1
  | .andVxVy x y => wordXYN 0x8 x y 0x2
  | .xorVxVy x y => wordXYN 0x8 x y 0x3
  | .addVxVy x y => wordXYN 0x8 x y 0x4
  | .subVxVy x y => wordXYN 0x8 x y 0x5
  | .shrVx x => wordXYN 0x8 x 0 0x6
  | .subnVxVy x y => wordXYN 0x8 x y 0x7
  | .shlVx x => wordXYN 0x8 x 0 0xE
  | .ldIAddr nnn => wordA 0xA nnn
  | .jpV0Addr nnn => wordA 0xB nnn
  | .rndVxByte x kk => wordXK 0xC x kk
  | .drwVxVyN x y n => wordXYN 0xD x y (BitVec.ofNat 4 n)
  | .skpVx x => wordXK 0xE x 0x9E
  | .sknpVx x => wordXK 0xE x 0xA1
  | .ldVxDt x => wordXK 0xF x 0x07
  | .ldVxK x => wordXK 0xF x 0x0A
  | .ldDtVx x => wordXK 0xF x 0x15
  | .ldStVx x => wordXK 0xF x 0x18
  | .addIVx x => wordXK 0xF x 0x1E
  | .ldFVx x => wordXK 0xF x 0x29
  | .ldBVx x => wordXK 0xF x 0x33
  | .ldMemVx x => wordXK 0xF x 0x55
  | .ldVxMem x => wordXK 0xF x 0x65

end Sys2Proof
end

