-- ==== Sys2Proof/Config.lean ====
section
/-!
DEFINITION. The parameters of the hardware (00_scope.md R5) and the free values the spec leaves open.
The parameter FONT is an argument of the reset, with the default `Machine.defaultFont` (Machine/Memory.lean, Machine/HostOps.lean).
-/
namespace Sys2Proof.Config

/-- ROM_ENTRY, the reset vector and the address `load_rom` copies to (R5, R31). -/
@[simp] def romEntry : Nat := 0x200

/-- ROM_MAX, the most bytes `load_rom` accepts (R5, R174). -/
@[simp] def romMax : Nat := 3584

/-- FONT_BASE, the address of the font copy (R5, R31). -/
@[simp] def fontBase : Nat := 0x050

/-- GLYPH_SIZE, the bytes of one glyph (R5). -/
@[simp] def glyphSize : Nat := 5

/-- The random byte of the n-th RND of a run: free, under no law (R162). DESIGN CHOICE, log 2: safe. -/
opaque rndByte : Nat → Byte

/-- One less than the width of a host-visible pixel, which the spec does not give (R161). log 18: safe. -/
opaque pixelWidthLessOne : Nat

/-- PIXEL_ON, an all-ones integer of a width of at least one bit (R161, D22; DEDUCED, log 18: safe). -/
def pixelOn : Nat := 2 ^ (pixelWidthLessOne + 1) - 1

end Sys2Proof.Config
end

