-- ==== Sys2Proof/Machine/State.lean ====
section
/-!
DEFINITION. The state of the block (10_state.md), the reasons a step can stop, and the state after reset
(70_reset_and_hazards.md R170).
-/
namespace Sys2Proof.Machine

/-- Memory: the bytes that differ from the reset contents, addresses strictly rising (R24, R30, R31; DESIGN
CHOICE, log 16: safe). What an unlisted address reads as is `Memory.unlisted`. -/
abbrev Memory := List Host.Cell

/-- The framebuffer: 32 rows of 64 pixels; bit `x` of row `y` is FB[y][x], 1 is ON (R23; DESIGN CHOICE,
log 17: safe). -/
abbrev Framebuffer := Vector (BitVec 64) 32

/-- Everything the spec gives the machine (10_state.md). -/
structure State where
  /-- V0..VF (R10); VF is `v[15]`, the flag register (R12). -/
  v : Vector Byte 16
  /-- The index register I (R18). -/
  i : Word
  /-- The program counter (R15). -/
  pc : Word
  /-- The count of used stack entries, 0 to 16 (R19). -/
  sp : Fin 17
  /-- Stack[0..15] (R22). -/
  stack : Vector Word 16
  /-- The delay timer (R20). -/
  dt : Byte
  /-- The sound timer (R20). -/
  st : Byte
  /-- The current instruction register (R21; log 19). -/
  ir : Word
  /-- Memory (R24). -/
  mem : Memory
  /-- The framebuffer (R23). -/
  fb : Framebuffer
  /-- The keypad sample key[0..15], an input the host writes between steps (R25, R160, C11; log 1). -/
  keys : Vector Bool 16
  /-- The model's own: how many random bytes have been drawn (R162; log 2). -/
  draws : Nat
deriving DecidableEq, Repr

/-- The four synchronous faults with their information values (R150). A faulting step changes no state
(R151), so the outcome carries none. -/
inductive Fault
  /-- Code 1. Raised by the fetch, DRW, LD B,Vx, LD [I],Vx and LD Vx,[I] on a byte address above 0xFFF; holds
  the lowest such address. The spec's choice D4, D5 (log 12): safe, the machine stops where an instance might go on. -/
  | addressFault (addr : Nat)
  /-- Code 2. Raised by CALL with SP = 16; holds the address of the CALL. The spec's choice D6 (log 13): safe. -/
  | stackOverflow (call : Word)
  /-- Code 3. Raised by RET with SP = 0; holds the address of the RET. The spec's choice D6 (log 13): safe. -/
  | stackUnderflow (ret : Word)
  /-- Code 4. Raised by SKP and SKNP with V[X] above 15; holds V[X]. The spec's choice D7 (log 14): safe. -/
  | keyIndexFault (key : Byte)
deriving DecidableEq, Repr

/-- What the model refuses. No instruction is refused. -/
inductive Refusal
  /-- Raised by `exec` alone, for an instruction without a meaning; there is none. Safe. -/
  | notModelled (mnemonic : String)
deriving DecidableEq, Repr

/-- The state after `reset` (R170). Memory lists nothing: an unlisted address reads as the reset contents.
The spec gives every value but two: `keys` is an input, all released while the host has written nothing (R25,
R172; DESIGN CHOICE, log 1: unsafe), and `draws` is the model's own (DESIGN CHOICE, log 2: safe). -/
def State.reset : State where
  v := Vector.replicate 16 0
  i := 0
  pc := BitVec.ofNat 16 Config.romEntry
  sp := 0
  stack := Vector.replicate 16 0
  dt := 0
  st := 0
  ir := 0
  mem := []
  fb := Vector.replicate 32 0
  keys := Vector.replicate 16 false
  draws := 0

end Sys2Proof.Machine
end

