-- ==== Sys2Proof/Machine/Memory.lean ====
section
/-!
DEFINITION. Memory: the font table, what an unlisted address reads as, one-byte reads and writes, the
canonical form, and the multi-byte accesses built from them in ascending order (20_memory.md R30 to R40;
70_reset_and_hazards.md R170, R171).
-/
namespace Sys2Proof.Machine

/-- Glyphs 0 to 7 of the font (R171). PRESUMED (the spec takes the bytes from general knowledge, G2), log 5: unsafe. -/
def fontLow : List Byte :=
  [ 0xF0, 0x90, 0x90, 0x90, 0xF0,   0x20, 0x60, 0x20, 0x20, 0x70,
    0xF0, 0x10, 0xF0, 0x80, 0xF0,   0xF0, 0x10, 0xF0, 0x10, 0xF0,
    0x90, 0x90, 0xF0, 0x10, 0x10,   0xF0, 0x80, 0xF0, 0x10, 0xF0,
    0xF0, 0x80, 0xF0, 0x90, 0xF0,   0xF0, 0x10, 0x20, 0x40, 0x40 ]

/-- Glyphs 8 to F of the font (R171). PRESUMED, log 5: unsafe. -/
def fontHigh : List Byte :=
  [ 0xF0, 0x90, 0xF0, 0x90, 0xF0,   0xF0, 0x90, 0xF0, 0x10, 0xF0,
    0xF0, 0x90, 0xF0, 0x90, 0x90,   0xE0, 0x90, 0xE0, 0x90, 0xE0,
    0xF0, 0x80, 0x80, 0x80, 0xF0,   0xE0, 0x90, 0x90, 0x90, 0xE0,
    0xF0, 0x80, 0xF0, 0x80, 0xF0,   0xF0, 0x80, 0xF0, 0x80, 0x80 ]

/-- The default of the parameter FONT, 16 glyphs of 5 bytes (R26, R171). -/
def font : List Byte := fontLow ++ fontHigh

/-- A value of the parameter FONT: 80 bytes (R5, R26). -/
abbrev FontTable := Vector Byte 80

/-- The default font as a value of the parameter (R171). -/
def defaultFont : FontTable := ⟨font.toArray, rfl⟩

/-- What an unlisted address reads as: the contents a reset with the default font leaves, the font copy at
0x050..0x09F and zero elsewhere (R31, R170; log 16). -/
def Memory.unlisted (a : Nat) : Byte :=
  if Config.fontBase ≤ a then font.getD (a - Config.fontBase) 0 else 0

/-- The byte at an address: the value last written there, or the reset contents (R33, R40, R41). -/
def Memory.read : Memory → Nat → Byte
  | [], a => Memory.unlisted a
  | (b, w) :: m, a => if a = b then w else Memory.read m a

/-- Write one byte (R33), keeping the addresses rising and listing no byte equal to the reset contents. -/
def Memory.write : Memory → Nat → Byte → Memory
  | [], a, x => if x = Memory.unlisted a then [] else [(a, x)]
  | (b, w) :: m, a, x =>
    if a = b then (if x = Memory.unlisted a then m else (a, x) :: m)
    else if a < b then (if x = Memory.unlisted a then (b, w) :: m else (a, x) :: (b, w) :: m)
    else (b, w) :: Memory.write m a x

/-- Every listed address is at least `lo` and at most 0xFFF, addresses rise strictly, and no entry repeats
the reset contents. -/
def Memory.wfFrom : Nat → Memory → Bool
  | _, [] => true
  | lo, (b, w) :: m => decide (lo ≤ b) && decide (b ≤ 0xFFF) && decide (w ≠ Memory.unlisted b) && Memory.wfFrom (b + 1) m

/-- The canonical form: equal memories are equal lists. -/
def Memory.wf (m : Memory) : Bool := Memory.wfFrom 0 m

/-- The `n` bytes from address `a`, ascending (R38). -/
def Memory.readBytes (m : Memory) (a : Nat) : Nat → List Byte
  | 0 => []
  | n + 1 => m.read a :: Memory.readBytes m (a + 1) n

/-- Write bytes from address `a`, ascending (R38). -/
def Memory.writeBytes (m : Memory) (a : Nat) : List Byte → Memory
  | [] => m
  | b :: bs => Memory.writeBytes (m.write a b) (a + 1) bs

end Sys2Proof.Machine
end

