-- ==== Sys2Proof/Machine/Ops.lean ====
section
/-!
DEFINITION. The operations the meanings share: register, stack, pixel and key access, raising a fault, the
address range check, CALL's push and RET's pop, skips, the fetch and the timer tick.
-/
namespace Sys2Proof.Machine

/-- What a meaning or a step answers. -/
abbrev Result := Host.Outcome State Fault Refusal

/-- V[x] (R10). -/
def State.reg (s : State) (x : Reg) : Byte := s.v[x.val]

/-- V[x] <- b (R10, R11). -/
def State.setReg (s : State) (x : Reg) (b : Byte) : State := { s with v := s.v.set x.val b }

/-- Stack[k] (R22). -/
def State.stackEntry (s : State) (k : Fin 16) : Word := s.stack[k.val]

/-- key[k], true when pressed (R25, R160). -/
def State.key (s : State) (k : Fin 16) : Bool := s.keys[k.val]

/-- FB[y][x] of a framebuffer (R23). -/
def Framebuffer.pixelAt (fb : Framebuffer) (y : Fin 32) (x : Fin 64) : Bool := fb[y.val].getLsbD x.val

/-- FB[y][x] <- FB[y][x] xor 1 (R131). -/
def Framebuffer.toggle (fb : Framebuffer) (y : Fin 32) (x : Fin 64) : Framebuffer :=
  fb.set y.val (fb[y.val] ^^^ (1#64 <<< x.val))

/-- FB[y][x], true when ON (R23). -/
def State.pixel (s : State) (y : Fin 32) (x : Fin 64) : Bool := s.fb.pixelAt y x

/-- pc <- target. -/
def State.setPc (s : State) (target : Word) : State := { s with pc := target }

/-- I <- w (R18). -/
def State.setI (s : State) (w : Word) : State := { s with i := w }

/-- DT <- b (R20). -/
def State.setDt (s : State) (b : Byte) : State := { s with dt := b }

/-- ST <- b (R20). -/
def State.setSt (s : State) (b : Byte) : State := { s with st := b }

/-- Store bytes at ascending addresses (R38). -/
def State.store (s : State) (a : Nat) (bytes : List Byte) : State := { s with mem := s.mem.writeBytes a bytes }

/-- Replace the framebuffer (CLS, DRW; R23). -/
def State.setFb (s : State) (fb : Framebuffer) : State := { s with fb := fb }

/-- One random byte has been drawn (R162; log 2). -/
def State.drawn (s : State) : State := { s with draws := s.draws + 1 }

/-- Raise a fault: the step is abandoned and changes nothing (R77, R150, R151; log 15). The spec gives the
machine no other exception: no vector, no saved PC, no mode, and no return from a fault (R151, R152, R155). -/
def raise (f : Fault) : Result := .fault f

/-- Check the `n` byte addresses from `a`, formed without wrap, before anything changes: when one is above
0xFFF raise AddressFault with the lowest such address, max(a, 0x1000) (R33, R34, R71; log 12). -/
def checkRange (a n : Nat) (go : Result) : Result :=
  if n = 0 ∨ a + n ≤ 0x1000 then go else raise (.addressFault (max a 0x1000))

/-- CALL: push the advanced PC and go to the target, or StackOverflow at the CALL's own address (R92; log 13). -/
def pushAndGo (target : Word) (s : State) : Result :=
  if h : s.sp.val < 16 then
    .next { s with stack := s.stack.set s.sp.val s.pc, sp := ⟨s.sp.val + 1, by omega⟩, pc := target }
  else raise (.stackOverflow (s.pc - 2))

/-- RET: pop into PC, leaving the entry as it is, or StackUnderflow at the RET's own address (R22, R90; log 13). -/
def popAndGo (s : State) : Result :=
  if h : s.sp.val = 0 then raise (.stackUnderflow (s.pc - 2))
  else .next { s with sp := ⟨s.sp.val - 1, by omega⟩, pc := s.stack[s.sp.val - 1] }

/-- A skip adds 2 to the advanced PC (R72, R93). -/
def skipIf (taken : Bool) (s : State) : State := if taken then s.setPc (s.pc + 2) else s

/-- The key a register names, or KeyIndexFault when its value is above 15 (R140, R141; log 14). -/
def withKeyIndex (b : Byte) (go : Fin 16 → Result) : Result :=
  if h : b.toNat < 16 then go ⟨b.toNat, h⟩ else raise (.keyIndexFault b)

/-- The least key that is pressed, if any (R143; log 10). -/
def State.leastKey (s : State) : Option (Fin 16) := (List.finRange 16).find? s.key

/-- A timer counts down by one and stops at zero (R75, R157). -/
def countDown (t : Byte) : Byte := if t = 0 then 0 else t - 1

/-- Phase 4: both timers tick (R75). -/
def tick (s : State) : State := { s with dt := countDown s.dt, st := countDown s.st }

/-- The tick follows the execute phase in every step that does not fault (R70, R75, R77). -/
def finish : Result → Result
  | .next t => .next (tick t)
  | .fault f => .fault f
  | .refused r => .refused r

/-- The word at PC, the byte at the lower address high (R35, R71). PC may be odd (R37). -/
def State.fetchWord (s : State) : Word :=
  wordOfBytes (s.mem.read s.pc.toNat) (s.mem.read (s.pc.toNat + 1))

/-- Phase 1: IR takes the fetched word and PC advances by 2, before decode and execute (R71, R72). -/
def State.advance (s : State) : State := { s with ir := s.fetchWord, pc := s.pc + 2 }

/-- A word stored at PC, high byte first, when both its bytes lie in memory; for `withFetchWord` (log 21). -/
def State.placeWord (s : State) (w : Word) : State :=
  if s.pc.toNat ≤ 0xFFE then s.store s.pc.toNat (bytesOfWord w) else s

/-- The code number of a fault (R150, D28; log 29). -/
def Fault.code : Fault → Nat
  | .addressFault _ => 1
  | .stackOverflow _ => 2
  | .stackUnderflow _ => 3
  | .keyIndexFault _ => 4

/-- The information value of a fault (R150). -/
def Fault.info : Fault → Nat
  | .addressFault a => a
  | .stackOverflow a => a.toNat
  | .stackUnderflow a => a.toNat
  | .keyIndexFault k => k.toNat

end Sys2Proof.Machine
end

