-- ==== Sys2Proof/Machine/Operands.lean ====
section
/-!
DEFINITION. The operand forms (30_encoding.md R53, 43_index_memory.md): zero extension, the address base
I, the block V0..VX, the glyph address of a digit and the decimal digits of a byte.
-/
namespace Sys2Proof.Machine

/-- zext_16 of an address immediate (R53). -/
def zextAddr (nnn : Addr12) : Word := nnn.setWidth 16

/-- zext_16 of a register's value. -/
def zextByte (b : Byte) : Word := b.setWidth 16

/-- The base of every data access: I, as a number that `I + k` does not wrap (R34). -/
def State.base (s : State) : Nat := s.i.toNat

/-- The values of V0..VX, in order (R124). -/
def State.regBlock (s : State) (x : Reg) : List Byte := s.v.toList.take (x.val + 1)

/-- V0..VX replaced by the bytes from memory address `a`, one each, ascending (R125). -/
def State.loadRegs (s : State) (a : Nat) (x : Reg) : State :=
  { s with v := Vector.ofFn fun k => if k ≤ x then s.mem.read (a + k.val) else s.reg k }

/-- FONT_BASE + 5 * v with the full 8-bit value and no check (R122; log 11). -/
def glyphAddress (b : Byte) : Word :=
  BitVec.ofNat 16 Config.fontBase + BitVec.ofNat 16 Config.glyphSize * zextByte b

/-- Hundreds, tens and ones of a byte, each a binary number (R123). -/
def decimalDigits (b : Byte) : List Byte := [b / 100, b / 10 % 10, b % 10]

/-- The value a hidden random source would give this step: a free draw (R162; log 2). -/
def State.randomByte (s : State) : Byte := Config.rndByte s.draws

end Sys2Proof.Machine
end

