-- ==== Sys2Proof/Machine/ControlFlow.lean ====
section
/-!
DEFINITION. The control transfers (41_control_flow.md). Each runs with PC already advanced (R72).
-/
namespace Sys2Proof.Machine

/-- RET (R90). -/
def execRet (s : State) : Result := popAndGo s

/-- JP addr (R91). -/
def execJpAddr (nnn : Addr12) (s : State) : Result := .next (s.setPc (zextAddr nnn))

/-- CALL addr (R92). -/
def execCallAddr (nnn : Addr12) (s : State) : Result := pushAndGo (zextAddr nnn) s

/-- SE Vx,byte (R93). -/
def execSeVxByte (x : Reg) (kk : Byte) (s : State) : Result := .next (skipIf (s.reg x == kk) s)

/-- SNE Vx,byte (R94). -/
def execSneVxByte (x : Reg) (kk : Byte) (s : State) : Result := .next (skipIf (s.reg x != kk) s)

/-- SE Vx,Vy (R95). -/
def execSeVxVy (x y : Reg) (s : State) : Result := .next (skipIf (s.reg x == s.reg y) s)

/-- SNE Vx,Vy (R96). -/
def execSneVxVy (x y : Reg) (s : State) : Result := .next (skipIf (s.reg x != s.reg y) s)

/-- JP V0,addr: the 16-bit sum, not reduced modulo 4096 (R97; log 25). -/
def execJpV0Addr (nnn : Addr12) (s : State) : Result := .next (s.setPc (zextAddr nnn + zextByte (s.reg 0)))

end Sys2Proof.Machine
end

