-- ==== Sys2Proof/Machine/Flags.lean ====
section
/-!
DEFINITION. The flag computations: carry, not-borrow, the bit shifted out, and the write of VF after the
result (10_state.md R12 to R14, 42_load_alu.md R112).
-/
namespace Sys2Proof.Machine

/-- The flag register, V15 (R12). -/
def vf : Reg := 15

/-- A flag as the value of VF: the whole byte, 0x00 or 0x01 (R12, R13). -/
def flagByte (c : Bool) : Byte := if c then 1 else 0

/-- Carry: the unsigned sum exceeds 255 (R106, R112). -/
def carry (a b : Byte) : Bool := decide (a.toNat + b.toNat > 255)

/-- Not-borrow of `a - b`: `a` is strictly greater (R107, R109, R112). -/
def notBorrow (a b : Byte) : Bool := decide (a.toNat > b.toNat)

/-- The bit a right shift by one drops (R108). -/
def lowBit (a : Byte) : Bool := a.getLsbD 0

/-- The bit a left shift by one drops (R110). -/
def highBit (a : Byte) : Bool := a.getLsbD 7

/-- The result goes to V[x], then the flag to VF, which replaces it when x is 15 (R13, R14; log 8). -/
def State.setResultAndFlag (s : State) (x : Reg) (result : Byte) (flag : Bool) : State :=
  (s.setReg x result).setReg vf (flagByte flag)

end Sys2Proof.Machine
end

