-- ==== Sys2Proof/Machine/Display.lean ====
section
/-!
DEFINITION. The display (44_display.md): CLS, and DRW with its sprite scan, XOR compositor and collision
detector, in the order of R131's pseudocode. Bit 7 of a sprite byte is the leftmost pixel (R132; PRESUMED,
log 6: unsafe); pixels off the screen are not drawn and do not collide (R133; log 9).
-/
namespace Sys2Proof.Machine

/-- The framebuffer and the collision seen so far, while a sprite is scanned. -/
abbrev Canvas := Framebuffer × Bool

/-- One sprite bit: column `x0 + c` of row `y` shows bit `7 - c` (R131, R132). -/
def scanBit (b : Byte) (x0 y : Nat) (cv : Canvas) (c : Nat) : Canvas :=
  if h : y ≤ 31 ∧ x0 + c ≤ 63 then
    if b.getLsbD (7 - c) then
      (cv.1.toggle ⟨y, by omega⟩ ⟨x0 + c, by omega⟩, cv.2 || cv.1.pixelAt ⟨y, by omega⟩ ⟨x0 + c, by omega⟩)
    else cv
  else cv

/-- One sprite byte: columns x0 to x0 + 7 of row `y` (R131). -/
def scanRow (b : Byte) (x0 y : Nat) (cv : Canvas) : Canvas := (List.range 8).foldl (scanBit b x0 y) cv

/-- The sprite bytes, the first on row `y` and each next one row lower (R131). -/
def scanSprite (x0 : Nat) : Nat → List Byte → Canvas → Canvas
  | _, [], cv => cv
  | y, b :: bs, cv => scanSprite x0 (y + 1) bs (scanRow b x0 y cv)

/-- CLS: every pixel OFF (R130). -/
def execCls (s : State) : Result := .next (s.setFb (Vector.replicate 32 0))

/-- DRW Vx,Vy,n: the operands are read first, the range is checked before anything changes, VF is the
collision (R131; log 8, log 12). -/
def execDrwVxVyN (x y : Reg) (n : Nat) (s : State) : Result :=
  let cv := scanSprite ((s.reg x).toNat % 64) ((s.reg y).toNat % 32) (s.mem.readBytes s.base n) (s.fb, false)
  checkRange s.base n (.next ((s.setFb cv.1).setReg vf (flagByte cv.2)))

end Sys2Proof.Machine
end

