-- ==== Sys2Proof/Machine/IndexMemory.lean ====
section
/-!
DEFINITION. The index register and memory (43_index_memory.md). The whole range is checked before anything
is written (R34), and no instruction here that accesses memory changes I (R18; log 26).
-/
namespace Sys2Proof.Machine

/-- LD I,addr (R120). -/
def execLdIAddr (nnn : Addr12) (s : State) : Result := .next (s.setI (zextAddr nnn))

/-- ADD I,Vx, modulo 65536, no flag (R121). -/
def execAddIVx (x : Reg) (s : State) : Result := .next (s.setI (s.i + zextByte (s.reg x)))

/-- LD F,Vx (R122). -/
def execLdFVx (x : Reg) (s : State) : Result := .next (s.setI (glyphAddress (s.reg x)))

/-- LD B,Vx: hundreds, tens, ones at I, I+1, I+2 (R123). -/
def execLdBVx (x : Reg) (s : State) : Result :=
  checkRange s.base 3 (.next (s.store s.base (decimalDigits (s.reg x))))

/-- LD [I],Vx: V0..VX at I..I+X (R124). -/
def execLdMemVx (x : Reg) (s : State) : Result :=
  checkRange s.base (x.val + 1) (.next (s.store s.base (s.regBlock x)))

/-- LD Vx,[I]: V0..VX from I..I+X (R125). -/
def execLdVxMem (x : Reg) (s : State) : Result :=
  checkRange s.base (x.val + 1) (.next (s.loadRegs s.base x))

end Sys2Proof.Machine
end

