-- ==== Sys2Proof/Machine/KeypadTimers.lean ====
section
/-!
DEFINITION. The keypad and the timers (45_keypad_timers.md). DT and ST are seen before the tick of the
step (R74).
-/
namespace Sys2Proof.Machine

/-- SKP Vx (R140). -/
def execSkpVx (x : Reg) (s : State) : Result := withKeyIndex (s.reg x) fun k => .next (skipIf (s.key k) s)

/-- SKNP Vx (R141). -/
def execSknpVx (x : Reg) (s : State) : Result := withKeyIndex (s.reg x) fun k => .next (skipIf (!s.key k) s)

/-- LD Vx,DT (R142). -/
def execLdVxDt (x : Reg) (s : State) : Result := .next (s.setReg x s.dt)

/-- LD Vx,K: the least key that is down, or back to the instruction's own address (R143; log 10). -/
def execLdVxK (x : Reg) (s : State) : Result :=
  match s.leastKey with
  | some k => .next (s.setReg x (BitVec.ofNat 8 k.val))
  | none => .next (s.setPc (s.pc - 2))

/-- LD DT,Vx (R144). -/
def execLdDtVx (x : Reg) (s : State) : Result := .next (s.setDt (s.reg x))

/-- LD ST,Vx (R145). -/
def execLdStVx (x : Reg) (s : State) : Result := .next (s.setSt (s.reg x))

end Sys2Proof.Machine
end

