-- ==== Sys2Proof/Machine/LoadAlu.lean ====
section
/-!
DEFINITION. Register loads, the ALU and RND (42_load_alu.md). Sums and differences wrap modulo 256 (R112).
-/
namespace Sys2Proof.Machine

/-- LD Vx,byte (R100). -/
def execLdVxByte (x : Reg) (kk : Byte) (s : State) : Result := .next (s.setReg x kk)

/-- ADD Vx,byte, no flag (R101). -/
def execAddVxByte (x : Reg) (kk : Byte) (s : State) : Result := .next (s.setReg x (s.reg x + kk))

/-- LD Vx,Vy (R102). -/
def execLdVxVy (x y : Reg) (s : State) : Result := .next (s.setReg x (s.reg y))

/-- OR Vx,Vy, no flag (R103). -/
def execOrVxVy (x y : Reg) (s : State) : Result := .next (s.setReg x (s.reg x ||| s.reg y))

/-- AND Vx,Vy, no flag (R104). -/
def execAndVxVy (x y : Reg) (s : State) : Result := .next (s.setReg x (s.reg x &&& s.reg y))

/-- XOR Vx,Vy, no flag (R105). -/
def execXorVxVy (x y : Reg) (s : State) : Result := .next (s.setReg x (s.reg x ^^^ s.reg y))

/-- ADD Vx,Vy, VF the carry (R106). -/
def execAddVxVy (x y : Reg) (s : State) : Result :=
  .next (s.setResultAndFlag x (s.reg x + s.reg y) (carry (s.reg x) (s.reg y)))

/-- SUB Vx,Vy, VF the not-borrow (R107). -/
def execSubVxVy (x y : Reg) (s : State) : Result :=
  .next (s.setResultAndFlag x (s.reg x - s.reg y) (notBorrow (s.reg x) (s.reg y)))

/-- SHR Vx, VF the old bit 0; V[Y] is not read (R108). -/
def execShrVx (x : Reg) (s : State) : Result :=
  .next (s.setResultAndFlag x (s.reg x / 2) (lowBit (s.reg x)))

/-- SUBN Vx,Vy, VF the not-borrow (R109). -/
def execSubnVxVy (x y : Reg) (s : State) : Result :=
  .next (s.setResultAndFlag x (s.reg y - s.reg x) (notBorrow (s.reg y) (s.reg x)))

/-- SHL Vx, VF the old bit 7; V[Y] is not read (R110). -/
def execShlVx (x : Reg) (s : State) : Result :=
  .next (s.setResultAndFlag x (s.reg x * 2) (highBit (s.reg x)))

/-- RND Vx,byte: the step's random byte masked by KK (R111, R162; log 2). -/
def execRndVxByte (x : Reg) (kk : Byte) (s : State) : Result := .next ((s.setReg x (s.randomByte &&& kk)).drawn)

end Sys2Proof.Machine
end

