-- ==== Sys2Proof/Machine/Execute.lean ====
section
/-! DEFINITION. Phases 2 and 3 of a step on a fetched word: decode, then execute (40_step_pipeline.md R73, R74). -/
namespace Sys2Proof.Machine

/-- Run the instruction a word decodes to; an unknown word executes nothing (R58, R76). -/
def executeWord (w : Word) (s : State) : Result :=
  match decode w with
  | .ok i => exec i s
  | .error _ => .next s

end Sys2Proof.Machine
end

