-- ==== Sys2Proof/Machine/Step.lean ====
section
/-! DEFINITION. One step: fetch, PC advance, decode, execute, timer tick (40_step_pipeline.md R70). -/
namespace Sys2Proof.Machine

/-- One atomic transition: check the two fetch addresses, fetch and advance, decode and execute, tick (R70, R71).
A fault of the fetch or of the instruction abandons the step (R77). -/
def step (s : State) : Host.Outcome State Fault Refusal :=
  checkRange s.pc.toNat 2 (finish (executeWord s.fetchWord s.advance))

/-- `s` with an instruction word, numbered as spec/opcode_table.json numbers it, stored where `step` fetches (log 21). -/
def State.withFetchWord (s : State) (nbits w : Nat) : State := s.placeWord (tableWord nbits w)

end Sys2Proof.Machine
end

