-- ==== Sys2Proof/Machine/HostOps.lean ====
section
/-!
DEFINITION. The host's operations on the block (00_scope.md R3): reset, load_rom, the keypad sample, step
and read_fb. They act between steps and never overlap one (R2, R180; log 28).
-/
namespace Sys2Proof.Machine

/-- Errors of host operations; they are not faults of a step (R163). -/
inductive HostError
  /-- `load_rom` of more than 3584 bytes; nothing is written (R174). -/
  | romTooLarge
deriving DecidableEq, Repr

/-- `load_rom(bytes)`: copy to 0x200.., or reject the whole load (R174; log 27). -/
def loadRom (bytes : List Byte) (s : State) : Except HostError State :=
  if bytes.length ≤ Config.romMax then .ok (s.store Config.romEntry bytes) else .error .romTooLarge

/-- The host presents a keypad sample (R160; log 1). -/
def State.setKeys (s : State) (keys : Vector Bool 16) : State := { s with keys := keys }

/-- `step` on the sample the host presents for it (R70, R160). -/
def stepWith (keys : Vector Bool 16) (s : State) : Result := step (s.setKeys keys)

/-- The host's view of one pixel: PIXEL_ON or 0 (R161; log 18). -/
def pixelValue (on : Bool) : Nat := if on then Config.pixelOn else 0

/-- `read_fb`: the pixels row-major, element `y * 64 + x` for FB[y][x] (R132, R161). -/
def State.readFb (s : State) : List Nat :=
  (List.finRange 32).flatMap fun y => (List.finRange 64).map fun x => pixelValue (s.pixel y x)

/-- The state after reset of a block whose parameter FONT is `glyphs`: its 80 bytes copied to 0x050.. (R5, R26,
R170, R171, D18; log 5). With `defaultFont` it is `State.reset`. -/
def State.resetWith (glyphs : FontTable) : State := State.reset.store Config.fontBase glyphs.toList

/-- The operations of R3 that change the block. -/
inductive HostOp
  /-- `reset` (R170). -/
  | reset
  /-- `load_rom(bytes)` (R174). -/
  | loadRom (bytes : List Byte)
  /-- A new keypad sample (R160). -/
  | keys (sample : Vector Bool 16)
  /-- `step` (R70). -/
  | step
deriving DecidableEq, Repr

/-- The state, after a host operation, of a block whose parameter FONT is `glyphs`. A rejected load and a faulting step leave it as it was
(R151, R174; log 15); `reset` does not touch the input and the hidden random source (R170, R172; log 3). -/
def applyHostOp (glyphs : FontTable) : HostOp → State → State
  | .reset, s => { State.resetWith glyphs with keys := s.keys, draws := s.draws }
  | .loadRom bytes, s =>
    match loadRom bytes s with
    | .ok t => t
    | .error _ => s
  | .keys sample, s => s.setKeys sample
  | .step, s =>
    match step s with
    | .next t => t
    | .fault _ => s
    | .refused _ => s

end Sys2Proof.Machine
end

