-- ==== Sys2Proof/Safety.lean ====
section
/-!
DEFINITION. The terms statements use: the parts of the state and what "unchanged" means for each, what an
instruction may write, the invariant of reachable states, and the faults the spec predicts.
-/
namespace Sys2Proof.Machine

/-- The parts of the state (10_state.md section 8, with the input and the model's own counter). -/
inductive Part
  | v | i | pc | sp | stack | dt | st | ir | mem | fb | keys | draws
deriving DecidableEq, Repr

/-- The part reads the same in `t` as in `s`: memory byte by byte, the framebuffer pixel by pixel. -/
def Part.same : Part → State → State → Prop
  | .v, s, t => ∀ r, t.reg r = s.reg r
  | .i, s, t => t.i = s.i
  | .pc, s, t => t.pc = s.pc
  | .sp, s, t => t.sp = s.sp
  | .stack, s, t => ∀ k, t.stackEntry k = s.stackEntry k
  | .dt, s, t => t.dt = s.dt
  | .st, s, t => t.st = s.st
  | .ir, s, t => t.ir = s.ir
  | .mem, s, t => ∀ a, t.mem.read a = s.mem.read a
  | .fb, s, t => ∀ y x, t.pixel y x = s.pixel y x
  | .keys, s, t => ∀ k, t.key k = s.key k
  | .draws, s, t => t.draws = s.draws

/-- Every part but the named ones is unchanged from `s` to `t`. -/
def SameExcept (parts : List Part) (s t : State) : Prop := ∀ p, p ∉ parts → p.same s t

/-- The result goes to V[x] and nothing else changes (the shape of 42_load_alu.md without a flag). -/
def WritesRegister (r : Result) (s : State) (x : Reg) (b : Byte) : Prop :=
  ∃ t, r = .next t ∧ (∀ k, t.reg k = if k = x then b else s.reg k) ∧ SameExcept [.v] s t

/-- The result goes to V[x], then the flag, 0 or 1, to VF, and nothing else changes (R12 to R14). -/
def WritesRegisterAndFlag (r : Result) (s : State) (x : Reg) (result : Nat) (flag : Prop) : Prop :=
  ∃ t, r = .next t ∧ (∀ k, k ≠ x → k ≠ vf → t.reg k = s.reg k) ∧ (x ≠ vf → (t.reg x).toNat = result) ∧
    (flag → t.reg vf = 1) ∧ (¬ flag → t.reg vf = 0) ∧ SameExcept [.v] s t

/-- The instruction completes and only PC may change, to `target` (41_control_flow.md). -/
def OnlyMovesPc (r : Result) (s : State) (target : Nat) : Prop :=
  ∃ t, r = .next t ∧ t.pc.toNat = target ∧ SameExcept [.pc] s t

/-- The parts an instruction may write in its execute phase (10_state.md R12, R16, R18 to R23, R25; 20_memory.md R38). -/
def Part.writtenBy : Instr → List Part
  | .cls => [.fb]
  | .ret => [.pc, .sp]
  | .callAddr _ => [.pc, .sp, .stack]
  | .jpAddr _ | .jpV0Addr _ => [.pc]
  | .seVxByte _ _ | .sneVxByte _ _ | .seVxVy _ _ | .sneVxVy _ _ | .skpVx _ | .sknpVx _ => [.pc]
  | .ldVxByte _ _ | .addVxByte _ _ | .ldVxVy _ _ | .orVxVy _ _ | .andVxVy _ _ | .xorVxVy _ _ => [.v]
  | .addVxVy _ _ | .subVxVy _ _ | .subnVxVy _ _ | .shrVx _ | .shlVx _ | .ldVxDt _ | .ldVxMem _ => [.v]
  | .rndVxByte _ _ => [.v, .draws]
  | .drwVxVyN _ _ _ => [.v, .fb]
  | .ldVxK _ => [.v, .pc]
  | .ldDtVx _ => [.dt]
  | .ldStVx _ => [.st]
  | .ldIAddr _ | .addIVx _ | .ldFVx _ => [.i]
  | .ldBVx _ | .ldMemVx _ => [.mem]

/-- The instruction writes VF as a flag (R12). -/
def writesFlag : Instr → Bool
  | .addVxVy _ _ | .subVxVy _ _ | .subnVxVy _ _ | .shrVx _ | .shlVx _ | .drwVxVyN _ _ _ => true
  | .cls | .ret | .jpAddr _ | .callAddr _ | .seVxByte _ _ | .sneVxByte _ _ | .seVxVy _ _ | .sneVxVy _ _ => false
  | .ldVxByte _ _ | .addVxByte _ _ | .ldVxVy _ _ | .orVxVy _ _ | .andVxVy _ _ | .xorVxVy _ _ => false
  | .ldIAddr _ | .jpV0Addr _ | .rndVxByte _ _ | .skpVx _ | .sknpVx _ | .ldVxDt _ | .ldVxK _ => false
  | .ldDtVx _ | .ldStVx _ | .addIVx _ | .ldFVx _ | .ldBVx _ | .ldMemVx _ | .ldVxMem _ => false

/-- The general registers an instruction may write: its Vx, V0..VX for LD Vx,[I], and VF as a flag (R11, R12). -/
def writesRegister : Instr → Reg → Bool
  | .ldVxByte x _, r | .addVxByte x _, r | .rndVxByte x _, r => r == x
  | .ldVxVy x _, r | .orVxVy x _, r | .andVxVy x _, r | .xorVxVy x _, r => r == x
  | .ldVxDt x, r | .ldVxK x, r => r == x
  | .addVxVy x _, r | .subVxVy x _, r | .subnVxVy x _, r | .shrVx x, r | .shlVx x, r => r == x || r == vf
  | .drwVxVyN _ _ _, r => r == vf
  | .ldVxMem x, r => decide (r ≤ x)
  | .cls, _ | .ret, _ | .jpAddr _, _ | .callAddr _, _ | .jpV0Addr _, _ | .ldIAddr _, _ => false
  | .seVxByte _ _, _ | .sneVxByte _ _, _ | .seVxVy _ _, _ | .sneVxVy _ _, _ | .skpVx _, _ | .sknpVx _, _ => false
  | .ldDtVx _, _ | .ldStVx _, _ | .addIVx _, _ | .ldFVx _, _ | .ldBVx _, _ | .ldMemVx _, _ => false

/-- The instruction reads the keypad sample (R160). -/
def readsKeys : Instr → Bool
  | .skpVx _ | .sknpVx _ | .ldVxK _ => true
  | .cls | .ret | .jpAddr _ | .callAddr _ | .seVxByte _ _ | .sneVxByte _ _ | .seVxVy _ _ | .sneVxVy _ _ => false
  | .ldVxByte _ _ | .addVxByte _ _ | .ldVxVy _ _ | .orVxVy _ _ | .andVxVy _ _ | .xorVxVy _ _ => false
  | .addVxVy _ _ | .subVxVy _ _ | .shrVx _ | .subnVxVy _ _ | .shlVx _ | .ldIAddr _ | .jpV0Addr _ => false
  | .rndVxByte _ _ | .drwVxVyN _ _ _ | .ldVxDt _ | .ldDtVx _ | .ldStVx _ | .addIVx _ | .ldFVx _ => false
  | .ldBVx _ | .ldMemVx _ | .ldVxMem _ => false

/-- The bits of an instruction's word that its decoding inspects or its operands use (R52, R54). -/
def usedBits : Instr → Word
  | .cls | .ret => 0xF00F
  | .seVxVy _ _ | .sneVxVy _ _ => 0xFFF0
  | .shrVx _ | .shlVx _ | .skpVx _ | .sknpVx _ => 0xFF0F
  | .jpAddr _ | .callAddr _ | .ldIAddr _ | .jpV0Addr _ | .drwVxVyN _ _ _ => 0xFFFF
  | .seVxByte _ _ | .sneVxByte _ _ | .ldVxByte _ _ | .addVxByte _ _ | .rndVxByte _ _ => 0xFFFF
  | .ldVxVy _ _ | .orVxVy _ _ | .andVxVy _ _ | .xorVxVy _ _ | .addVxVy _ _ | .subVxVy _ _ | .subnVxVy _ _ => 0xFFFF
  | .ldVxDt _ | .ldVxK _ | .ldDtVx _ | .ldStVx _ | .addIVx _ | .ldFVx _ | .ldBVx _ | .ldMemVx _ | .ldVxMem _ => 0xFFFF

/-- What holds in every state a run reaches: PC is at most 0x10FE (R17), every stack entry is at most 0x1000
(R90, R17), and memory keeps its canonical form with every listed address in memory (R30; log 16). -/
def StateInv (s : State) : Prop :=
  s.pc.toNat ≤ 0x10FE ∧ (∀ k, (s.stackEntry k).toNat ≤ 0x1000) ∧ s.mem.wf = true

/-- AddressFault when one of `n` byte addresses from `a` is above 0xFFF (R33, R34). -/
def rangeFault (a n : Nat) : Option Fault :=
  if n ≠ 0 ∧ a + n - 1 > 0xFFF then some (.addressFault (max a 0x1000)) else none

/-- The fault that the table of R150 gives an instruction fetched at `at_`, from the state before the step alone. -/
def instrFault (at_ : Word) (s : State) : Instr → Option Fault
  | .drwVxVyN _ _ n => rangeFault s.base n
  | .ldBVx _ => rangeFault s.base 3
  | .ldMemVx x => rangeFault s.base (x.val + 1)
  | .ldVxMem x => rangeFault s.base (x.val + 1)
  | .callAddr _ => if s.sp = 16 then some (.stackOverflow at_) else none
  | .ret => if s.sp = 0 then some (.stackUnderflow at_) else none
  | .skpVx x => if (s.reg x).toNat > 15 then some (.keyIndexFault (s.reg x)) else none
  | .sknpVx x => if (s.reg x).toNat > 15 then some (.keyIndexFault (s.reg x)) else none
  | .cls | .jpAddr _ | .jpV0Addr _ | .seVxByte _ _ | .sneVxByte _ _ | .seVxVy _ _ | .sneVxVy _ _ => none
  | .ldVxByte _ _ | .addVxByte _ _ | .ldVxVy _ _ | .orVxVy _ _ | .andVxVy _ _ | .xorVxVy _ _ => none
  | .addVxVy _ _ | .subVxVy _ _ | .shrVx _ | .subnVxVy _ _ | .shlVx _ | .rndVxByte _ _ => none
  | .ldIAddr _ | .addIVx _ | .ldFVx _ | .ldVxDt _ | .ldVxK _ | .ldDtVx _ | .ldStVx _ => none

/-- The fault of a step as the table of R150 gives it: the fetch first, then the decoded instruction (R154). -/
def predictedFault (s : State) : Option Fault :=
  if s.pc.toNat > 0xFFE then some (.addressFault (max s.pc.toNat 0x1000))
  else match decode s.fetchWord with
    | .ok i => instrFault s.pc s i
    | .error _ => none

/-- Run instructions one after another in their execute phase, stopping at the first fault. -/
def execAll : List Instr → State → Result
  | [], s => .next s
  | i :: is, s =>
    match exec i s with
    | .next t => execAll is t
    | .fault f => .fault f
    | .refused r => .refused r

/-- One step on each keypad sample, in order, stopping at the first fault (R160, R173). -/
def runSamples : List (Vector Bool 16) → State → Result
  | [], s => .next s
  | keys :: samples, s =>
    match stepWith keys s with
    | .next t => runSamples samples t
    | .fault f => .fault f
    | .refused r => .refused r

/-- A sprite of bytes `bytes` drawn at column `x0`, row `y0` has a 1 bit on pixel (x, y): row `y - y0`, bit
`7 - (x - x0)`, without wrapping (R132, R133). -/
def spriteCovers (bytes : List Byte) (x0 y0 : Nat) (y : Fin 32) (x : Fin 64) : Prop :=
  y0 ≤ y.val ∧ x0 ≤ x.val ∧ x.val - x0 ≤ 7 ∧ ∃ b, bytes[y.val - y0]? = some b ∧ b.getLsbD (7 - (x.val - x0)) = true

end Sys2Proof.Machine
end

