-- ==== Sys2Proof/Certificates/Slice0/Obligations.lean ====
section
/-!
DEFINITION. The statements for the provers. Each docstring names the rule of spec/ it formalises, or, where
it rests on a choice the spec marks as its own, the decision and the log entry.
-/

open Sys2Proof Sys2Proof.Machine

/-! ## Encoding -/

/-- Words written out bit by bit from R55's encodings decode to their instructions. Three of the numbers are the
document's own (R55, E1, E2); the others are general knowledge (G1, log 4). -/
def Obligations.WordsWrittenOutDecode : Prop :=
  decode 0b0110101000000101#16 = .ok (.ldVxByte 10 5) ∧
  decode 0b0111101000000011#16 = .ok (.addVxByte 10 3) ∧
  decode 0b0000000011100000#16 = .ok .cls ∧
  decode 0b0000000011101110#16 = .ok .ret ∧
  decode 0b0010001100000000#16 = .ok (.callAddr 0x300) ∧
  decode 0b1000000100100100#16 = .ok (.addVxVy 1 2) ∧
  decode 0b1111001001010101#16 = .ok (.ldMemVx 2) ∧
  decode 0b1101000000010101#16 = .ok (.drwVxVyN 0 1 5) ∧
  decode 0b1110001010011110#16 = .ok (.skpVx 2) ∧
  decode 0b1111000000010101#16 = .ok (.ldDtVx 0)

/-- Decoding the encoding of a well-formed instruction gives it back, from the word and from its bytes at the
head of any list, with every operand at every value. -/
def Obligations.DecodeOfEncodeIsTheInstruction : Prop :=
  ∀ i : Instr, i.wellFormed = true →
    decode (encode i) = .ok i ∧ ∀ rest, decodeBytes (bytesOfWord (encode i) ++ rest) = .ok (i, rest)

/-- The words of an instruction are its encoding, up to the bits its family does not inspect and it does not
use; and a word that decodes gives a well-formed instruction (R54, decision D2, log 7). -/
def Obligations.WordsOfAnInstructionDifferOnlyInUnusedBits : Prop :=
  (∀ (i : Instr) (w : Word), i.wellFormed = true →
    (decode w = .ok i ↔ w &&& usedBits i = encode i &&& usedBits i)) ∧
  ∀ (i : Instr) (w : Word), decode w = .ok i → i.wellFormed = true

/-- The two-level decoder of R54 and the lookup in the table of R55 are one decoder (decisions D2, D3). -/
def Obligations.TwoLevelDecodeIsTheTableLookup : Prop := ∀ w : Word, decode w = decodeByTable w

/-- "No two rows can match the same word" (R55), and the table has the 34 rows of R56. -/
def Obligations.OpcodeRowsDoNotOverlap : Prop :=
  opcodeTable.length = 34 ∧
  ∀ (w : Word) (a b : Nat) (ra rb : OpcodeRow), opcodeTable[a]? = some ra → opcodeTable[b]? = some rb →
    ra.selects w = true → rb.selects w = true → a = b

/-- The unknown words are exactly those of the table of R58 (its keys rest on the assignment G1, log 4). -/
def Obligations.UnknownWordsAreExactlyTheTabulated : Prop :=
  ∀ w : Word, decode w = .error (.unknownWord w) ↔
    (famOf w = 0x0 ∧ nOf w ≠ 0x0 ∧ nOf w ≠ 0xE) ∨
    (famOf w = 0x8 ∧ nOf w ∈ ([0x8, 0x9, 0xA, 0xB, 0xC, 0xD, 0xF] : List (BitVec 4))) ∨
    (famOf w = 0xE ∧ nOf w ≠ 0x1 ∧ nOf w ≠ 0xE) ∨
    (famOf w = 0xF ∧ kkOf w ∉ ([0x07, 0x0A, 0x15, 0x18, 0x1E, 0x29, 0x33, 0x55, 0x65] : List Byte))

/-! ## The step -/

/-- The byte at the lower address is the high byte of the fetched word (R35). -/
def Obligations.FetchIsBigEndian : Prop :=
  ∀ s : State, s.fetchWord.toNat = (s.mem.read s.pc.toNat).toNat * 256 + (s.mem.read (s.pc.toNat + 1)).toNat

/-- When the word at PC decodes to an instruction, a step is that instruction's meaning on the state with IR
the word and PC advanced by 2, and then the timer tick; a fault of the meaning is the step's (R70). -/
def Obligations.StepRunsTheDecodedInstruction : Prop :=
  ∀ (s : State) (i : Instr), s.pc.toNat ≤ 0xFFE → decode s.fetchWord = .ok i →
    (∀ t, exec i { s with ir := s.fetchWord, pc := s.pc + 2 } = .next t →
      step s = .next { t with dt := if t.dt = 0 then 0 else t.dt - 1, st := if t.st = 0 then 0 else t.st - 1 }) ∧
    (∀ f, exec i { s with ir := s.fetchWord, pc := s.pc + 2 } = .fault f → step s = .fault f)

/-- An unknown word executes nothing: PC advances by 2, IR holds the word, the timers tick, nothing else (R76). -/
def Obligations.UnknownWordOnlyAdvancesAndTicks : Prop :=
  ∀ (s : State) (e : Reject), s.pc.toNat ≤ 0xFFE → decode s.fetchWord = .error e →
    ∃ t, step s = .next t ∧ t.ir = s.fetchWord ∧ t.pc.toNat = s.pc.toNat + 2 ∧
      t.dt.toNat = s.dt.toNat - 1 ∧ t.st.toNat = s.st.toNat - 1 ∧ SameExcept [.ir, .pc, .dt, .st] s t

/-- A fetch with PC above 0xFFE raises AddressFault with the lowest address out of range (the spec's choice
D5, log 12). -/
def Obligations.FetchBeyondMemoryFaults : Prop :=
  ∀ s : State, s.pc.toNat > 0xFFE →
    step s = .fault (.addressFault (if s.pc.toNat = 0xFFF then 0x1000 else s.pc.toNat))

/-- In every step that does not fault each timer ends one lower than the execute phase left it, and not below 0:
the old value, or V[X] after LD DT,Vx and LD ST,Vx (R75). -/
def Obligations.EveryStepTicksBothTimers : Prop :=
  ∀ s t : State, step s = .next t →
    ((∀ x, decode s.fetchWord ≠ .ok (.ldDtVx x)) → t.dt.toNat = s.dt.toNat - 1) ∧
    (∀ x, decode s.fetchWord = .ok (.ldDtVx x) → t.dt.toNat = (s.reg x).toNat - 1) ∧
    ((∀ x, decode s.fetchWord ≠ .ok (.ldStVx x)) → t.st.toNat = s.st.toNat - 1) ∧
    (∀ x, decode s.fetchWord = .ok (.ldStVx x) → t.st.toNat = (s.reg x).toNat - 1)

/-- Over one step on each of any keypad samples, waiting steps of LD Vx,K included, DT falls by one per step and
stops at 0, as long as no step executes LD DT,Vx (R158). -/
def Obligations.DelayTimerFallsByOnePerStep : Prop :=
  ∀ (samples : List (Vector Bool 16)) (s t : State),
    (∀ k u, k < samples.length → runSamples (samples.take k) s = .next u → ∀ x, decode u.fetchWord ≠ .ok (.ldDtVx x)) →
    runSamples samples s = .next t → t.dt.toNat = s.dt.toNat - samples.length

/-- A faulting step leaves the block as it was, and every further step gives the same fault (R151 and R152, the
spec's choice D8, log 15). -/
def Obligations.FaultingStepChangesNothing : Prop :=
  ∀ (glyphs : FontTable) (s : State) (f : Fault), step s = .fault f →
    applyHostOp glyphs .step s = s ∧
    ∀ n, step ((List.replicate n HostOp.step).foldl (fun u o => applyHostOp glyphs o u) s) = .fault f

/-- A step faults exactly when, and exactly as, the table of R150 says from the state before it, and else it
goes on: no step is refused (the conditions are the spec's choices D4 to D8, logs 12 to 15). -/
def Obligations.StepFaultsExactlyAsTabulated : Prop :=
  ∀ s : State,
    (∀ f, step s = .fault f ↔ predictedFault s = some f) ∧ (predictedFault s = none → ∃ t, step s = .next t)

/-! ## The whole machine -/

/-- An instruction changes no part of the state but those the spec lets it write (R12, R16, R18 to R23). The spec's
choices in it: LD [I],Vx and LD Vx,[I] keep I (D15, log 26), RET keeps the stack entries (D30, log 13). The model's
own: only RND moves the counter of drawn bytes (log 2). -/
def Obligations.InstructionsWriteOnlyTheirParts : Prop :=
  ∀ (i : Instr) (s t : State), exec i s = .next t → SameExcept (Part.writtenBy i) s t

/-- An instruction changes no general register but its destination and, for the flag writers, VF (R11, R12). -/
def Obligations.InstructionsWriteOnlyTheirRegisters : Prop :=
  ∀ (i : Instr) (s t : State), exec i s = .next t → ∀ r, writesRegister i r = false → t.reg r = s.reg r

/-- The flag writers leave VF at 0x00 or 0x01 on every execution, also when VF is their Vx (R12, R13; the
order at X = 15 is the spec's choice D9, log 8). -/
def Obligations.FlagIsZeroOrOne : Prop :=
  ∀ (i : Instr) (s t : State), writesFlag i = true → exec i s = .next t → t.reg vf = 0 ∨ t.reg vf = 1

/-- No step writes the keypad sample, whatever it executes; and only SKP, SKNP and LD Vx,K read it: a step of
anything else is alike on every sample, its fault included (R160; the sample is a field of the state, log 1). -/
def Obligations.OnlyThreeInstructionsReadTheKeypad : Prop :=
  ∀ s : State,
    (∀ t, step s = .next t → t.keys = s.keys) ∧
    ((∀ i, decode s.fetchWord = .ok i → readsKeys i = false) → ∀ keys : Vector Bool 16,
      (∀ t, step s = .next t → step (s.setKeys keys) = .next (t.setKeys keys)) ∧
      (∀ f, step s = .fault f → step (s.setKeys keys) = .fault f))

/-- No step reads ST or the IR of an earlier step: they change no outcome and no other part of the next state
(R20, R21). -/
def Obligations.SoundTimerAndOldIrAreNeverRead : Prop :=
  ∀ (s : State) (b : Byte) (w : Word),
    (∀ t, step s = .next t → ∃ u, step { s with st := b, ir := w } = .next u ∧ SameExcept [.st] t u) ∧
    (∀ f, step s = .fault f → step { s with st := b, ir := w } = .fault f)

/-- Only RND draws a random byte: any other instruction steps alike whatever bytes the source would give (R162;
the counter of drawn bytes is the model's, log 2). -/
def Obligations.OnlyRndDrawsARandomByte : Prop :=
  ∀ (s : State) (n : Nat), (∀ x kk, decode s.fetchWord ≠ .ok (.rndVxByte x kk)) →
    (∀ t, step s = .next t → step { s with draws := n } = .next { t with draws := n } ∧ t.draws = s.draws) ∧
    (∀ f, step s = .fault f → step { s with draws := n } = .fault f)

/-- The reset state meets the invariant. -/
def Obligations.ResetMeetsTheInvariant : Prop := StateInv State.reset

/-- Every step keeps the invariant: PC at most 0x10FE, stack entries at most 0x1000, canonical memory (R17; the
form of memory is the model's, log 16). -/
def Obligations.StepKeepsTheInvariant : Prop := ∀ s t : State, StateInv s → step s = .next t → StateInv t

/-- Every state the host can bring a block of any FONT to, by any resets, loads, key samples and steps in any order,
meets the invariant. -/
def Obligations.HostReachableStatesMeetTheInvariant : Prop :=
  ∀ (glyphs : FontTable) (ops : List HostOp),
    StateInv (ops.foldl (fun s o => applyHostOp glyphs o s) (State.resetWith glyphs))

/-! ## Control flow -/

/-- JP addr: PC becomes NNN and nothing else changes (R91). -/
def Obligations.JumpGoesToTheAddress : Prop :=
  ∀ (s : State) (nnn : Addr12), OnlyMovesPc (exec (.jpAddr nnn) s) s nnn.toNat

/-- JP V0,addr: PC becomes NNN + V0, not reduced modulo 4096 (R97, the spec's choice D24, log 25). -/
def Obligations.JumpAddsV0WithoutReduction : Prop :=
  ∀ (s : State) (nnn : Addr12), OnlyMovesPc (exec (.jpV0Addr nnn) s) s (nnn.toNat + (s.reg 0).toNat)

/-- SE and SNE add 2 to the advanced PC when the comparison holds and else leave it (R93 to R96). -/
def Obligations.SkipsAddTwoWhenTheComparisonHolds : Prop :=
  ∀ (s : State) (x y : Reg) (kk : Byte),
    OnlyMovesPc (exec (.seVxByte x kk) s) s (if s.reg x = kk then (s.pc + 2).toNat else s.pc.toNat) ∧
    OnlyMovesPc (exec (.sneVxByte x kk) s) s (if s.reg x ≠ kk then (s.pc + 2).toNat else s.pc.toNat) ∧
    OnlyMovesPc (exec (.seVxVy x y) s) s (if s.reg x = s.reg y then (s.pc + 2).toNat else s.pc.toNat) ∧
    OnlyMovesPc (exec (.sneVxVy x y) s) s (if s.reg x ≠ s.reg y then (s.pc + 2).toNat else s.pc.toNat)

/-- CALL pushes the advanced PC at Stack[SP], adds 1 to SP and goes to NNN; with SP = 16 it raises StackOverflow
at its own address (R92, the spec's choice D6, log 13). -/
def Obligations.CallPushesTheReturnAddress : Prop :=
  ∀ (s : State) (nnn : Addr12),
    (s.sp.val < 16 → ∃ t, exec (.callAddr nnn) s = .next t ∧ t.pc.toNat = nnn.toNat ∧ t.sp.val = s.sp.val + 1 ∧
      (∀ k, t.stackEntry k = if k.val = s.sp.val then s.pc else s.stackEntry k) ∧
      SameExcept [.pc, .sp, .stack] s t) ∧
    (s.sp.val = 16 → exec (.callAddr nnn) s = .fault (.stackOverflow (s.pc - 2)))

/-- RET takes PC from Stack[SP-1], subtracts 1 from SP and leaves the entry as it is; with SP = 0 it raises
StackUnderflow at its own address (R90, the spec's choices D6 and D30, log 13). -/
def Obligations.ReturnPopsTheReturnAddress : Prop :=
  ∀ s : State,
    (∀ k : Fin 16, s.sp.val = k.val + 1 → ∃ t, exec .ret s = .next t ∧ t.pc = s.stackEntry k ∧ t.sp.val = k.val ∧
      SameExcept [.pc, .sp] s t) ∧
    (s.sp.val = 0 → exec .ret s = .fault (.stackUnderflow (s.pc - 2)))

/-- As many nested CALLs as the stack has room for succeed, and as many RETs then bring back PC and SP (16 usable
levels, R19, R92, the spec's choice D6, log 13). -/
def Obligations.NestedCallsReturnInOrder : Prop :=
  ∀ (targets : List Addr12) (s : State), s.sp.val + targets.length ≤ 16 →
    ∃ t, execAll (targets.map Instr.callAddr) s = .next t ∧ t.sp.val = s.sp.val + targets.length ∧
      ∃ u, execAll (List.replicate targets.length Instr.ret) t = .next u ∧ u.pc = s.pc ∧ u.sp = s.sp ∧
        SameExcept [.stack] s u

/-- A jump to its own address idles: after one step on each of any keypad samples only IR, the timers and the sample
the host last presented differ, and the timers have run down (R183, the idiom of the spec's choice D27). -/
def Obligations.JumpToSelfOnlyRunsTheTimers : Prop :=
  ∀ (s : State) (nnn : Addr12), s.pc.toNat ≤ 0xFFE → decode s.fetchWord = .ok (.jpAddr nnn) → nnn.toNat = s.pc.toNat →
    ∀ samples, ∃ t, runSamples samples s = .next t ∧ t.dt.toNat = s.dt.toNat - samples.length ∧
      t.st.toNat = s.st.toNat - samples.length ∧ t.keys = samples.getLastD s.keys ∧ SameExcept [.ir, .dt, .st, .keys] s t

/-! ## Loads and ALU -/

/-- LD Vx,byte puts KK in V[X], LD Vx,Vy copies V[Y], OR, AND and XOR combine V[X] and V[Y]; nothing else
changes, VF included unless it is Vx (R100, R102 to R105). -/
def Obligations.LoadsAndLogicWriteVxOnly : Prop :=
  ∀ (s : State) (x y : Reg) (kk : Byte),
    WritesRegister (exec (.ldVxByte x kk) s) s x kk ∧
    WritesRegister (exec (.ldVxVy x y) s) s x (s.reg y) ∧
    WritesRegister (exec (.orVxVy x y) s) s x (s.reg x ||| s.reg y) ∧
    WritesRegister (exec (.andVxVy x y) s) s x (s.reg x &&& s.reg y) ∧
    WritesRegister (exec (.xorVxVy x y) s) s x (s.reg x ^^^ s.reg y)

/-- ADD Vx,byte puts (V[X] + KK) mod 256 in V[X] and writes no flag (R101). -/
def Obligations.AddImmediateWrapsWithoutFlag : Prop :=
  ∀ (s : State) (x : Reg) (kk : Byte),
    ∃ b : Byte, b.toNat = ((s.reg x).toNat + kk.toNat) % 256 ∧ WritesRegister (exec (.addVxByte x kk) s) s x b

/-- ADD, SUB and SUBN put the result modulo 256 in V[X] and then the carry or the strict not-borrow of the old
operands in VF (R106, R107, R109, R112; with X = 15 the flag stays, the spec's choice D9, log 8). -/
def Obligations.AddAndSubtractSetTheFlag : Prop :=
  ∀ (s : State) (x y : Reg),
    WritesRegisterAndFlag (exec (.addVxVy x y) s) s x (((s.reg x).toNat + (s.reg y).toNat) % 256)
      ((s.reg x).toNat + (s.reg y).toNat > 255) ∧
    WritesRegisterAndFlag (exec (.subVxVy x y) s) s x (((s.reg x).toNat + 256 - (s.reg y).toNat) % 256)
      ((s.reg x).toNat > (s.reg y).toNat) ∧
    WritesRegisterAndFlag (exec (.subnVxVy x y) s) s x (((s.reg y).toNat + 256 - (s.reg x).toNat) % 256)
      ((s.reg y).toNat > (s.reg x).toNat)

/-- SHR and SHL shift V[X] by one and put the bit shifted out in VF, reading no other register (R108, R110, R112;
with X = 15 the flag stays, the spec's choice D9, log 8). -/
def Obligations.ShiftsPutTheLostBitInVF : Prop :=
  ∀ (s : State) (x : Reg),
    WritesRegisterAndFlag (exec (.shrVx x) s) s x ((s.reg x).toNat / 2) ((s.reg x).toNat % 2 = 1) ∧
    WritesRegisterAndFlag (exec (.shlVx x) s) s x ((s.reg x).toNat * 2 % 256) ((s.reg x).toNat ≥ 128)

/-- RND puts the random byte of the step masked by KK in V[X], so no bit that KK has clear, and the next RND
draws afresh; the statement holds whatever byte is drawn (R111, R162; the counter is the model's, log 2). -/
def Obligations.RandomByteIsMasked : Prop :=
  ∀ (s : State) (x : Reg) (kk : Byte), ∃ t, exec (.rndVxByte x kk) s = .next t ∧
    (∀ r, t.reg r = if r = x then Config.rndByte s.draws &&& kk else s.reg r) ∧ t.reg x &&& ~~~kk = 0 ∧
    t.draws = s.draws + 1 ∧ SameExcept [.v, .draws] s t

/-! ## Index register and memory -/

/-- LD I,addr puts NNN in I and changes nothing else (R120). -/
def Obligations.LoadIndexTakesTheAddress : Prop :=
  ∀ (s : State) (nnn : Addr12), ∃ t, exec (.ldIAddr nnn) s = .next t ∧ t.i.toNat = nnn.toNat ∧ SameExcept [.i] s t

/-- ADD I,Vx adds V[X] to I modulo 65536 and changes nothing else, VF included (R121; the width of
the sum is the spec's choice D24, log 25). -/
def Obligations.AddIndexWrapsAtSixteenBits : Prop :=
  ∀ (s : State) (x : Reg), ∃ t, exec (.addIVx x) s = .next t ∧
    t.i.toNat = (s.i.toNat + (s.reg x).toNat) % 65536 ∧ SameExcept [.i] s t

/-- LD F,Vx points I at 0x050 + 5 * V[X] and changes nothing else (R122; above 15 the formula is the spec's choice
D14, log 11). -/
def Obligations.LoadFontAddressIsFiveTimesTheDigit : Prop :=
  ∀ (s : State) (x : Reg), ∃ t, exec (.ldFVx x) s = .next t ∧
    t.i.toNat = 0x050 + 5 * (s.reg x).toNat ∧ SameExcept [.i] s t

/-- LD B,Vx stores hundreds, tens and ones at I, I+1, I+2 and nothing else; when I + 2 is above 0xFFF it faults
instead (R123, the spec's choice D4, log 12). -/
def Obligations.StoreDecimalDigitsOfVx : Prop :=
  ∀ (s : State) (x : Reg), s.mem.wf = true →
    (s.base + 2 ≤ 0xFFF → ∃ t, exec (.ldBVx x) s = .next t ∧
      (t.mem.read s.base).toNat = (s.reg x).toNat / 100 ∧
      (t.mem.read (s.base + 1)).toNat = (s.reg x).toNat / 10 % 10 ∧
      (t.mem.read (s.base + 2)).toNat = (s.reg x).toNat % 10 ∧
      (∀ a, a < s.base ∨ s.base + 2 < a → t.mem.read a = s.mem.read a) ∧ SameExcept [.mem] s t) ∧
    (s.base + 2 > 0xFFF → exec (.ldBVx x) s = .fault (.addressFault (max s.base 0x1000)))

/-- LD [I],Vx stores V0..VX at I..I+X and nothing else, I unchanged; when I + X is above 0xFFF it faults instead
(R124, the spec's choices D4 and D15, logs 12 and 26). -/
def Obligations.StoreRegistersThroughVx : Prop :=
  ∀ (s : State) (x : Reg), s.mem.wf = true →
    (s.base + x.val ≤ 0xFFF → ∃ t, exec (.ldMemVx x) s = .next t ∧
      (∀ r, r ≤ x → t.mem.read (s.base + r.val) = s.reg r) ∧
      (∀ a, a < s.base ∨ s.base + x.val < a → t.mem.read a = s.mem.read a) ∧ SameExcept [.mem] s t) ∧
    (s.base + x.val > 0xFFF → exec (.ldMemVx x) s = .fault (.addressFault (max s.base 0x1000)))

/-- LD Vx,[I] loads V0..VX from I..I+X and nothing else, I unchanged; when I + X is above 0xFFF it faults instead
(R125, the spec's choices D4 and D15, logs 12 and 26). -/
def Obligations.LoadRegistersThroughVx : Prop :=
  ∀ (s : State) (x : Reg),
    (s.base + x.val ≤ 0xFFF → ∃ t, exec (.ldVxMem x) s = .next t ∧
      (∀ r, t.reg r = if r ≤ x then s.mem.read (s.base + r.val) else s.reg r) ∧ SameExcept [.v] s t) ∧
    (s.base + x.val > 0xFFF → exec (.ldVxMem x) s = .fault (.addressFault (max s.base 0x1000)))

/-- What LD [I],Vx stored, LD Vx,[I] loads back, from any state with that memory and that I (R124, R125). -/
def Obligations.LoadAfterStoreRestoresRegisters : Prop :=
  ∀ (s t u : State) (x : Reg), s.mem.wf = true → exec (.ldMemVx x) s = .next t → u.mem = t.mem → u.i = t.i →
    ∃ w, exec (.ldVxMem x) u = .next w ∧ ∀ r, w.reg r = if r ≤ x then s.reg r else u.reg r

/-- Self-modifying code: a step that stores two registers over the bytes of the next instruction is seen by the
next fetch, first byte high (R43). -/
def Obligations.StoresAreSeenByTheNextFetch : Prop :=
  ∀ (s t : State) (x k k' : Reg), s.mem.wf = true → step s = .next t → decode s.fetchWord = .ok (.ldMemVx x) →
    k'.val = k.val + 1 → k' ≤ x → s.base + k.val = s.pc.toNat + 2 →
    t.fetchWord.toNat = (s.reg k).toNat * 256 + (s.reg k').toNat

/-! ## Display -/

/-- CLS turns every pixel OFF and changes nothing else, VF included (R130). -/
def Obligations.ClearScreenTurnsEveryPixelOff : Prop :=
  ∀ s : State, ∃ t, exec .cls s = .next t ∧ (∀ y x, t.pixel y x = false) ∧ SameExcept [.fb] s t

/-- DRW toggles exactly the on-screen pixels under a 1 bit of the sprite read from I.. at (V[X] mod 64, V[Y] mod
32), and VF is 1 exactly when one of them was ON; when the last sprite byte is above 0xFFF it faults instead (R131
to R133, the spec's choices D4, D10, D11, D12, logs 6, 8, 9, 12). -/
def Obligations.DrawTogglesTheCoveredPixels : Prop :=
  ∀ (s : State) (x y : Reg) (n : Nat),
    (n = 0 ∨ s.base + n - 1 ≤ 0xFFF → ∃ t, exec (.drwVxVyN x y n) s = .next t ∧
      (∀ Y X, spriteCovers (s.mem.readBytes s.base n) ((s.reg x).toNat % 64) ((s.reg y).toNat % 32) Y X →
        t.pixel Y X = !s.pixel Y X) ∧
      (∀ Y X, ¬ spriteCovers (s.mem.readBytes s.base n) ((s.reg x).toNat % 64) ((s.reg y).toNat % 32) Y X →
        t.pixel Y X = s.pixel Y X) ∧
      ((∃ Y X, spriteCovers (s.mem.readBytes s.base n) ((s.reg x).toNat % 64) ((s.reg y).toNat % 32) Y X ∧
        s.pixel Y X = true) → t.reg vf = 1) ∧
      ((∀ Y X, spriteCovers (s.mem.readBytes s.base n) ((s.reg x).toNat % 64) ((s.reg y).toNat % 32) Y X →
        s.pixel Y X = false) → t.reg vf = 0) ∧
      (∀ r, r ≠ vf → t.reg r = s.reg r) ∧ SameExcept [.v, .fb] s t) ∧
    (n ≠ 0 → s.base + n - 1 > 0xFFF → exec (.drwVxVyN x y n) s = .fault (.addressFault (max s.base 0x1000)))

/-- Drawing the same sprite twice at the same position restores every pixel, and the second VF is 1 exactly when
some covered pixel was OFF before the first draw (R131, the document's property). -/
def Obligations.DrawingTwiceRestoresThePixels : Prop :=
  ∀ (s t : State) (x y : Reg) (n : Nat), exec (.drwVxVyN x y n) s = .next t →
    (t.reg x).toNat % 64 = (s.reg x).toNat % 64 → (t.reg y).toNat % 32 = (s.reg y).toNat % 32 →
    ∃ u, exec (.drwVxVyN x y n) t = .next u ∧ (∀ Y X, u.pixel Y X = s.pixel Y X) ∧
      (u.reg vf = 1 ↔ ∃ Y X,
        spriteCovers (s.mem.readBytes s.base n) ((s.reg x).toNat % 64) ((s.reg y).toNat % 32) Y X ∧
        s.pixel Y X = false)

/-- `read_fb` gives 2048 values row-major, element y * 64 + x being PIXEL_ON when FB[y][x] is ON and 0 when it is
OFF, whatever PIXEL_ON is (R161, open parameter D22, log 18). -/
def Obligations.FramebufferIsReadRowMajor : Prop :=
  ∀ s : State, s.readFb.length = 2048 ∧
    ∀ (y : Fin 32) (x : Fin 64), s.readFb[y.val * 64 + x.val]? = some (if s.pixel y x then Config.pixelOn else 0)

/-! ## Keypad and timers -/

/-- SKP and SKNP test the level of the key whose number is the whole of V[X], and raise KeyIndexFault when it is
above 15 (R140, R141, the spec's choice D7, log 14). -/
def Obligations.KeySkipsTestTheNamedKey : Prop :=
  ∀ (s : State) (x : Reg),
    (∀ k : Fin 16, (s.reg x).toNat = k.val →
      OnlyMovesPc (exec (.skpVx x) s) s (if s.key k = true then (s.pc + 2).toNat else s.pc.toNat) ∧
      OnlyMovesPc (exec (.sknpVx x) s) s (if s.key k = false then (s.pc + 2).toNat else s.pc.toNat)) ∧
    ((s.reg x).toNat > 15 → exec (.skpVx x) s = .fault (.keyIndexFault (s.reg x)) ∧
      exec (.sknpVx x) s = .fault (.keyIndexFault (s.reg x)))

/-- LD Vx,K puts the least pressed key in V[X]; when none is pressed PC goes back to the instruction's own address
and nothing else changes (R143; the priority is the spec's choice D13, log 10). -/
def Obligations.KeyWaitTakesTheLeastKeyOrRepeats : Prop :=
  ∀ (s : State) (x : Reg),
    (∀ k : Fin 16, s.key k = true → (∀ j, j < k → s.key j = false) →
      WritesRegister (exec (.ldVxK x) s) s x (BitVec.ofNat 8 k.val)) ∧
    ((∀ k, s.key k = false) → OnlyMovesPc (exec (.ldVxK x) s) s (s.pc - 2).toNat)

/-- With no key pressed in the samples of its steps, LD Vx,K repeats for any number of them: PC stays at its address,
the timers run down and nothing else changes but IR and the sample the host last presented (R143, R179). -/
def Obligations.KeyWaitOnlyRunsTheTimers : Prop :=
  ∀ (s : State) (x : Reg), s.pc.toNat ≤ 0xFFE → decode s.fetchWord = .ok (.ldVxK x) →
    ∀ samples : List (Vector Bool 16), (∀ keys ∈ samples, ∀ k : Fin 16, keys[k.val] = false) →
      ∃ t, runSamples samples s = .next t ∧ t.dt.toNat = s.dt.toNat - samples.length ∧
        t.st.toNat = s.st.toNat - samples.length ∧ t.keys = samples.getLastD s.keys ∧ SameExcept [.ir, .dt, .st, .keys] s t

/-- LD Vx,DT copies DT to V[X]; LD DT,Vx and LD ST,Vx copy V[X] to the timer; nothing else changes in the execute
phase (R142, R144, R145). -/
def Obligations.TimerLoadsCopyOneByte : Prop :=
  ∀ (s : State) (x : Reg),
    WritesRegister (exec (.ldVxDt x) s) s x s.dt ∧
    (∃ t, exec (.ldDtVx x) s = .next t ∧ t.dt = s.reg x ∧ SameExcept [.dt] s t) ∧
    (∃ t, exec (.ldStVx x) s = .next t ∧ t.st = s.reg x ∧ SameExcept [.st] s t)

/-- A step of LD Vx,DT reads DT before the tick; a step of LD DT,Vx or LD ST,Vx leaves the timer one below V[X], or
at 0 (R78). -/
def Obligations.TimerStepsReadBeforeTheTick : Prop :=
  ∀ (s : State) (x : Reg), s.pc.toNat ≤ 0xFFE →
    (decode s.fetchWord = .ok (.ldVxDt x) →
      ∃ t, step s = .next t ∧ t.reg x = s.dt ∧ t.dt.toNat = s.dt.toNat - 1) ∧
    (decode s.fetchWord = .ok (.ldDtVx x) → ∃ t, step s = .next t ∧ t.dt.toNat = (s.reg x).toNat - 1) ∧
    (decode s.fetchWord = .ok (.ldStVx x) → ∃ t, step s = .next t ∧ t.st.toNat = (s.reg x).toNat - 1)

/-! ## Reset and loading -/

/-- After reset every register, timer and stack entry is 0, PC is 0x200, the screen is clear, and memory is zero but
for the copy of FONT at 0x050..0x09F (R170). -/
def Obligations.ResetZeroesAllButPcAndFont : Prop :=
  (∀ r, State.reset.reg r = 0) ∧ State.reset.i = 0 ∧ State.reset.pc = 0x0200 ∧
  (∀ k, State.reset.stackEntry k = 0) ∧ State.reset.sp = 0 ∧ State.reset.dt = 0 ∧ State.reset.st = 0 ∧
  State.reset.ir = 0 ∧ (∀ a, a < 0x050 ∨ 0x09F < a → State.reset.mem.read a = 0) ∧
  (∀ k, k < 80 → State.reset.mem.read (0x050 + k) = font.getD k 0) ∧ ∀ y x, State.reset.pixel y x = false

/-- The glyph bytes after reset, sixteen glyphs of five bytes (R171, from general knowledge, G2, log 5). -/
def Obligations.FontCopyHoldsTheGlyphs : Prop :=
  State.reset.mem.readBytes 0x050 80 =
    [0xF0, 0x90, 0x90, 0x90, 0xF0] ++ [0x20, 0x60, 0x20, 0x20, 0x70] ++ [0xF0, 0x10, 0xF0, 0x80, 0xF0] ++
    [0xF0, 0x10, 0xF0, 0x10, 0xF0] ++ [0x90, 0x90, 0xF0, 0x10, 0x10] ++ [0xF0, 0x80, 0xF0, 0x10, 0xF0] ++
    [0xF0, 0x80, 0xF0, 0x90, 0xF0] ++ [0xF0, 0x10, 0x20, 0x40, 0x40] ++ [0xF0, 0x90, 0xF0, 0x90, 0xF0] ++
    [0xF0, 0x90, 0xF0, 0x10, 0xF0] ++ [0xF0, 0x90, 0xF0, 0x90, 0x90] ++ [0xE0, 0x90, 0xE0, 0x90, 0xE0] ++
    [0xF0, 0x80, 0x80, 0x80, 0xF0] ++ [0xE0, 0x90, 0x90, 0x90, 0xE0] ++ [0xF0, 0x80, 0xF0, 0x80, 0xF0] ++
    [0xF0, 0x80, 0xF0, 0x80, 0x80]

/-- `load_rom` of at most 3584 bytes copies them to 0x200.. and changes nothing else; a longer one is rejected and
changes nothing (R174, the spec's choice D20, log 27). -/
def Obligations.LoadRomCopiesOrRejects : Prop :=
  ∀ (s : State) (bytes : List Byte), s.mem.wf = true →
    (bytes.length ≤ 3584 → ∃ t, loadRom bytes s = .ok t ∧
      (∀ k b, bytes[k]? = some b → t.mem.read (0x200 + k) = b) ∧
      (∀ a, a < 0x200 ∨ 0x200 + bytes.length ≤ a → t.mem.read a = s.mem.read a) ∧ SameExcept [.mem] s t) ∧
    (bytes.length > 3584 → loadRom bytes s = .error .romTooLarge ∧ ∀ glyphs, applyHostOp glyphs (.loadRom bytes) s = s)

/-- Every reset of a block copies that block's own FONT, all 80 bytes of it, to 0x050..0x09F, clears the rest of
memory, puts everything else to its value in `State.reset`, and keeps the keypad input (R5, R170, R172; FONT as a
parameter is the spec's choice D18, log 5; that `draws` is kept is the model's, log 3). With the default font it is
`State.reset`. -/
def Obligations.ResetCopiesTheFontOfTheBlock : Prop :=
  State.resetWith defaultFont = State.reset ∧
  ∀ (glyphs : FontTable) (s : State), ∃ t, applyHostOp glyphs .reset s = t ∧
    (∀ k : Fin 80, t.mem.read (0x050 + k.val) = glyphs[k.val]) ∧
    (∀ a, a < 0x050 ∨ 0x09F < a → t.mem.read a = 0) ∧
    SameExcept [.mem, .keys, .draws] State.reset t ∧ t.keys = s.keys ∧ t.draws = s.draws
end

