-- ==== Sys2Proof/Laws/Decode.lean ====
section
/-!
SUPPORT. The fields of a word as numbers, and the fields that each word format of the encoder holds
(30_encoding.md R51, R52).
-/
namespace Sys2Proof

theorem famOf_toNat (w : Word) : (famOf w).toNat = w.toNat / 4096 := by
  have := w.isLt
  simp [famOf, Nat.shiftRight_eq_div_pow]
  omega

theorem xOf_val (w : Word) : (xOf w).val = w.toNat / 256 % 16 := by
  simp [xOf, Nat.shiftRight_eq_div_pow]

theorem yOf_val (w : Word) : (yOf w).val = w.toNat / 16 % 16 := by
  simp [yOf, Nat.shiftRight_eq_div_pow]

theorem nOf_toNat (w : Word) : (nOf w).toNat = w.toNat % 16 := by
  simp [nOf]

theorem kkOf_toNat (w : Word) : (kkOf w).toNat = w.toNat % 256 := by
  simp [kkOf]

theorem nnnOf_toNat (w : Word) : (nnnOf w).toNat = w.toNat % 4096 := by
  simp [nnnOf]

theorem append_toNat {n m : Nat} (a : BitVec n) (b : BitVec m) : (a ++ b).toNat = a.toNat * 2 ^ m + b.toNat := by
  rw [BitVec.toNat_append, ← Nat.shiftLeft_add_eq_or_of_lt b.isLt, Nat.shiftLeft_eq]

theorem wordA_toNat (fam : BitVec 4) (nnn : Addr12) : (wordA fam nnn).toNat = fam.toNat * 4096 + nnn.toNat :=
  append_toNat _ _

theorem wordXK_toNat (fam : BitVec 4) (x : Reg) (kk : Byte) :
    (wordXK fam x kk).toNat = fam.toNat * 4096 + x.val * 256 + kk.toNat := by
  refine (append_toNat (fam ++ (BitVec.ofFin x : BitVec 4)) kk).trans ?_
  have hx : (BitVec.ofFin x : BitVec 4).toNat = x.val := rfl
  rw [append_toNat, hx]
  omega

theorem wordXYN_toNat (fam : BitVec 4) (x y : Reg) (n : BitVec 4) :
    (wordXYN fam x y n).toNat = fam.toNat * 4096 + x.val * 256 + y.val * 16 + n.toNat := by
  refine (append_toNat (fam ++ (BitVec.ofFin x : BitVec 4) ++ (BitVec.ofFin y : BitVec 4)) n).trans ?_
  have hx : (BitVec.ofFin x : BitVec 4).toNat = x.val := rfl
  have hy : (BitVec.ofFin y : BitVec 4).toNat = y.val := rfl
  rw [append_toNat, append_toNat, hx, hy]
  omega

theorem famOf_wordA (fam : BitVec 4) (nnn : Addr12) : famOf (wordA fam nnn) = fam := by
  have := nnn.isLt
  exact BitVec.eq_of_toNat_eq (by rw [famOf_toNat, wordA_toNat]; omega)

theorem nnnOf_wordA (fam : BitVec 4) (nnn : Addr12) : nnnOf (wordA fam nnn) = nnn := by
  have := nnn.isLt
  exact BitVec.eq_of_toNat_eq (by rw [nnnOf_toNat, wordA_toNat]; omega)

theorem famOf_wordXK (fam : BitVec 4) (x : Reg) (kk : Byte) : famOf (wordXK fam x kk) = fam := by
  have := kk.isLt
  exact BitVec.eq_of_toNat_eq (by rw [famOf_toNat, wordXK_toNat]; omega)

theorem xOf_wordXK (fam : BitVec 4) (x : Reg) (kk : Byte) : xOf (wordXK fam x kk) = x := by
  have := kk.isLt
  exact Fin.ext (by rw [xOf_val, wordXK_toNat]; omega)

theorem kkOf_wordXK (fam : BitVec 4) (x : Reg) (kk : Byte) : kkOf (wordXK fam x kk) = kk := by
  have := kk.isLt
  exact BitVec.eq_of_toNat_eq (by rw [kkOf_toNat, wordXK_toNat]; omega)

theorem nOf_eq_kkOf (w : Word) : nOf w = (kkOf w).setWidth 4 := by
  have := w.isLt
  exact BitVec.eq_of_toNat_eq (by rw [nOf_toNat, BitVec.toNat_setWidth, kkOf_toNat]; omega)

theorem famOf_wordXYN (fam : BitVec 4) (x y : Reg) (n : BitVec 4) : famOf (wordXYN fam x y n) = fam := by
  have := n.isLt
  exact BitVec.eq_of_toNat_eq (by rw [famOf_toNat, wordXYN_toNat]; omega)

theorem xOf_wordXYN (fam : BitVec 4) (x y : Reg) (n : BitVec 4) : xOf (wordXYN fam x y n) = x := by
  have := n.isLt
  exact Fin.ext (by rw [xOf_val, wordXYN_toNat]; omega)

theorem yOf_wordXYN (fam : BitVec 4) (x y : Reg) (n : BitVec 4) : yOf (wordXYN fam x y n) = y := by
  have := n.isLt
  exact Fin.ext (by rw [yOf_val, wordXYN_toNat]; omega)

theorem nOf_wordXYN (fam : BitVec 4) (x y : Reg) (n : BitVec 4) : nOf (wordXYN fam x y n) = n := by
  have := n.isLt
  exact BitVec.eq_of_toNat_eq (by rw [nOf_toNat, wordXYN_toNat]; omega)

/-- A word is its four nibbles (R51). -/
theorem word_eq_fields (w : Word) : w = wordXYN (famOf w) (xOf w) (yOf w) (nOf w) := by
  have := w.isLt
  refine BitVec.eq_of_toNat_eq ?_
  rw [wordXYN_toNat, famOf_toNat, xOf_val, yOf_val, nOf_toNat]
  omega

/-- Two words with the same nibbles are the same word. -/
theorem word_ext {w w' : Word} (hf : famOf w = famOf w') (hx : xOf w = xOf w') (hy : yOf w = yOf w') (hn : nOf w = nOf w') :
    w = w' := by
  rw [word_eq_fields w, word_eq_fields w', hf, hx, hy, hn]

theorem famOf_and (w m : Word) : famOf (w &&& m) = famOf w &&& famOf m := BitVec.extractLsb'_and

theorem nOf_and (w m : Word) : nOf (w &&& m) = nOf w &&& nOf m := BitVec.extractLsb'_and

theorem kkOf_and (w m : Word) : kkOf (w &&& m) = kkOf w &&& kkOf m := BitVec.extractLsb'_and

theorem xOf_and (w m : Word) : (BitVec.ofFin (xOf (w &&& m)) : BitVec 4) = BitVec.ofFin (xOf w) &&& BitVec.ofFin (xOf m) :=
  BitVec.extractLsb'_and (x := w) (y := m) (start := 8) (len := 4)

theorem yOf_and (w m : Word) : (BitVec.ofFin (yOf (w &&& m)) : BitVec 4) = BitVec.ofFin (yOf w) &&& BitVec.ofFin (yOf m) :=
  BitVec.extractLsb'_and (x := w) (y := m) (start := 4) (len := 4)

theorem xOf_and_of_ones (w : Word) {m : Word} (h : xOf m = 15) : xOf (w &&& m) = xOf w := by
  have := xOf_and w m
  rw [h] at this
  have e : ∀ a : BitVec 4, a &&& BitVec.ofFin 15 = a := by decide
  rw [e] at this
  exact congrArg BitVec.toFin this

theorem xOf_and_of_zeros (w : Word) {m : Word} (h : xOf m = 0) : xOf (w &&& m) = 0 := by
  have := xOf_and w m
  rw [h] at this
  have e : ∀ a : BitVec 4, a &&& BitVec.ofFin 0 = 0 := by decide
  rw [e] at this
  exact congrArg BitVec.toFin this

theorem yOf_and_of_ones (w : Word) {m : Word} (h : yOf m = 15) : yOf (w &&& m) = yOf w := by
  have := yOf_and w m
  rw [h] at this
  have e : ∀ a : BitVec 4, a &&& BitVec.ofFin 15 = a := by decide
  rw [e] at this
  exact congrArg BitVec.toFin this

theorem yOf_and_of_zeros (w : Word) {m : Word} (h : yOf m = 0) : yOf (w &&& m) = 0 := by
  have := yOf_and w m
  rw [h] at this
  have e : ∀ a : BitVec 4, a &&& BitVec.ofFin 0 = 0 := by decide
  rw [e] at this
  exact congrArg BitVec.toFin this

theorem and_ones4 (a : BitVec 4) : a &&& 15#4 = a := by revert a; decide

theorem and_zeros4 (a : BitVec 4) : a &&& 0#4 = 0#4 := by revert a; decide

/-- The words that a row with mask 0xF000 selects: the family alone (R54). -/
theorem and_F000_eq_iff (w p : Word) (hx : xOf p = 0) (hy : yOf p = 0) (hn : nOf p = 0) :
   (w &&& 0xF000#16 = p) ↔ famOf w = famOf p := by
  have f : famOf (w &&& 0xF000#16) = famOf w := by
    rw [famOf_and, show famOf 0xF000#16 = 15#4 by decide, and_ones4]
  constructor
  · rintro rfl; exact f.symm
  · intro h
    refine word_ext (f.trans h) ?_ ?_ ?_
    · rw [xOf_and_of_zeros w (by decide), hx]
    · rw [yOf_and_of_zeros w (by decide), hy]
    · exact (nOf_and w _).trans ((and_zeros4 _).trans hn.symm)

/-- The words that a row with mask 0xF00F selects: the family and N (R54). -/
theorem and_F00F_eq_iff (w p : Word) (hx : xOf p = 0) (hy : yOf p = 0) :
   (w &&& 0xF00F#16 = p) ↔ famOf w = famOf p ∧ nOf w = nOf p := by
  have f : famOf (w &&& 0xF00F#16) = famOf w := by
    rw [famOf_and, show famOf 0xF00F#16 = 15#4 by decide, and_ones4]
  have g : nOf (w &&& 0xF00F#16) = nOf w := by
    rw [nOf_and, show nOf 0xF00F#16 = 15#4 by decide, and_ones4]
  constructor
  · rintro rfl; exact ⟨f.symm, g.symm⟩
  · intro h
    refine word_ext (f.trans h.1) ?_ ?_ (g.trans h.2)
    · rw [xOf_and_of_zeros w (by decide), hx]
    · rw [yOf_and_of_zeros w (by decide), hy]

/-- The words that a row with mask 0xF0FF selects: the family and KK (R54). -/
theorem and_F0FF_eq_iff (w p : Word) (hx : xOf p = 0) :
   (w &&& 0xF0FF#16 = p) ↔ famOf w = famOf p ∧ kkOf w = kkOf p := by
  have f : famOf (w &&& 0xF0FF#16) = famOf w := by
    rw [famOf_and, show famOf 0xF0FF#16 = 15#4 by decide, and_ones4]
  have g : kkOf (w &&& 0xF0FF#16) = kkOf w := by
    rw [kkOf_and, show kkOf 0xF0FF#16 = 255#8 by decide]
    generalize kkOf w = a; revert a; decide
  constructor
  · rintro rfl; exact ⟨f.symm, g.symm⟩
  · intro h
    have hk := g.trans h.2
    refine word_ext (f.trans h.1) ?_ ?_ ?_
    · rw [xOf_and_of_zeros w (by decide), hx]
    · apply Fin.ext; rw [yOf_val, yOf_val]
      have := congrArg BitVec.toNat hk; rw [kkOf_toNat, kkOf_toNat] at this; omega
    · rw [nOf_eq_kkOf, nOf_eq_kkOf, hk]

/-- The bytes of a word, read back big-endian, are the word (R35). -/
theorem wordOfBytes_bytes (w : Word) : wordOfBytes (highByte w) (lowByte w) = w := by
  have := w.isLt
  refine BitVec.eq_of_toNat_eq ((append_toNat _ _).trans ?_)
  simp [highByte, lowByte, Nat.shiftRight_eq_div_pow]
  omega

end Sys2Proof
end

