-- ==== Sys2Proof/Laws/Memory.lean ====
section
/-!
SUPPORT. Memory: every operation keeps the canonical form, a read after a write, equal reads mean equal
memories, and what the multi-byte accesses read and write.
-/
namespace Sys2Proof.Machine

theorem Memory.unlisted_outside_font {a : Nat} (h : a < 0x050 ∨ 0x09F < a) : Memory.unlisted a = 0 := by
  unfold Memory.unlisted
  by_cases hb : Config.fontBase ≤ a
  · rw [if_pos hb]
    simp only [Config.fontBase] at hb ⊢
    exact List.getD_eq_default _ _ (by simp [font, fontLow, fontHigh]; omega)
  · rw [if_neg hb]

theorem Memory.wfFrom_cons {lo b : Nat} {w : Byte} {m : Memory} :
    Memory.wfFrom lo ((b, w) :: m) = true ↔
      lo ≤ b ∧ b ≤ 0xFFF ∧ w ≠ Memory.unlisted b ∧ Memory.wfFrom (b + 1) m = true := by
  simp [Memory.wfFrom, and_assoc]

theorem Memory.wfFrom_mono {lo lo' : Nat} (h : lo' ≤ lo) {m : Memory} (hm : Memory.wfFrom lo m = true) :
    Memory.wfFrom lo' m = true := by
  cases m with
  | nil => rfl
  | cons c m =>
    obtain ⟨b, w⟩ := c
    rw [Memory.wfFrom_cons] at hm ⊢
    exact ⟨by omega, hm.2⟩

/-- An address below every listed one reads as the reset contents. -/
theorem Memory.read_of_lt {lo : Nat} {m : Memory} (hm : Memory.wfFrom lo m = true) {a : Nat} (h : a < lo) :
    m.read a = Memory.unlisted a := by
  induction m generalizing lo with
  | nil => rfl
  | cons c m ih =>
    obtain ⟨b, w⟩ := c
    rw [Memory.wfFrom_cons] at hm
    rw [Memory.read, if_neg (by omega)]
    exact ih hm.2.2.2 (by omega)

theorem Memory.write_wfFrom {lo : Nat} {m : Memory} (hm : Memory.wfFrom lo m = true) {a : Nat} {x : Byte}
    (hlo : lo ≤ a) (ha : a ≤ 0xFFF) : Memory.wfFrom lo (m.write a x) = true := by
  induction m generalizing lo with
  | nil =>
    rw [Memory.write]
    split
    · rfl
    · rw [Memory.wfFrom_cons]; exact ⟨hlo, ha, ‹_›, rfl⟩
  | cons c m ih =>
    obtain ⟨b, w⟩ := c
    have hm' := hm
    rw [Memory.wfFrom_cons] at hm'
    obtain ⟨h1, h2, h3, h4⟩ := hm'
    rw [Memory.write]
    split
    · subst_vars
      split
      · exact Memory.wfFrom_mono (by omega) h4
      · rw [Memory.wfFrom_cons]; exact ⟨hlo, ha, ‹_›, h4⟩
    · split
      · split
        · exact hm
        · rw [Memory.wfFrom_cons, Memory.wfFrom_cons]; exact ⟨hlo, ha, ‹_›, by omega, h2, h3, h4⟩
      · rw [Memory.wfFrom_cons]; exact ⟨h1, h2, h3, ih h4 (by omega)⟩

theorem Memory.read_write_from {lo : Nat} {m : Memory} (hm : Memory.wfFrom lo m = true) (a c : Nat) (x : Byte) :
    (m.write a x).read c = if c = a then x else m.read c := by
  induction m generalizing lo with
  | nil =>
    rw [Memory.write]
    split <;> split <;> simp_all [Memory.read]
  | cons e m ih =>
    obtain ⟨b, w⟩ := e
    rw [Memory.wfFrom_cons] at hm
    obtain ⟨h1, h2, h3, h4⟩ := hm
    rw [Memory.write]
    split
    · subst_vars
      split
      · by_cases hc : c = b
        · subst_vars; simp [Memory.read_of_lt h4]
        · simp [hc, Memory.read]
      · by_cases hc : c = b <;> simp [hc, Memory.read]
    · split
      · split
        · by_cases hc : c = a
          · subst_vars
            simp only [if_true]
            rw [Memory.read, if_neg ‹_›, Memory.read_of_lt h4 (by omega)]
          · simp [hc]
        · by_cases hc : c = a <;> simp [hc, Memory.read]
      · by_cases hc : c = b
        · subst_vars; simp [Memory.read, Ne.symm ‹_›]
        · simp only [Memory.read, if_neg hc, ih h4]

/-- Two canonical memories that read alike are the same list. -/
theorem Memory.ext_from {lo : Nat} {m m' : Memory} (hm : Memory.wfFrom lo m = true) (hm' : Memory.wfFrom lo m' = true)
    (h : ∀ a, m.read a = m'.read a) : m = m' := by
  induction m generalizing lo m' with
  | nil =>
    cases m' with
    | nil => rfl
    | cons c m' =>
      obtain ⟨b, w⟩ := c
      rw [Memory.wfFrom_cons] at hm'
      have := h b
      simp only [Memory.read, if_true] at this
      exact absurd this.symm hm'.2.2.1
  | cons c m ih =>
    obtain ⟨b, w⟩ := c
    have hb := hm
    rw [Memory.wfFrom_cons] at hb
    obtain ⟨h1, h2, h3, h4⟩ := hb
    cases m' with
    | nil =>
      have := h b
      simp only [Memory.read, if_true] at this
      exact absurd this h3
    | cons c' m' =>
      obtain ⟨b', w'⟩ := c'
      have hb' := hm'
      rw [Memory.wfFrom_cons] at hb'
      obtain ⟨g1, g2, g3, g4⟩ := hb'
      have hbb : b = b' := by
        rcases Nat.lt_trichotomy b b' with hlt | heq | hgt
        · have := h b
          rw [Memory.read, if_pos rfl, Memory.read, if_neg (by omega), Memory.read_of_lt g4 (by omega)] at this
          exact absurd this h3
        · exact heq
        · have := h b'
          rw [Memory.read, if_neg (by omega), Memory.read_of_lt h4 (by omega), Memory.read, if_pos rfl] at this
          exact absurd this.symm g3
      subst hbb
      have hw := h b
      simp only [Memory.read, if_true] at hw
      subst hw
      congr 1
      refine ih h4 g4 fun a => ?_
      by_cases ha : a = b
      · subst ha; rw [Memory.read_of_lt h4 (by omega), Memory.read_of_lt g4 (by omega)]
      · have := h a
        rwa [Memory.read, if_neg ha, Memory.read, if_neg ha] at this

@[simp] theorem Memory.readBytes_length (m : Memory) (a n : Nat) : (m.readBytes a n).length = n := by
  induction n generalizing a with
  | zero => rfl
  | succ n ih => simp [Memory.readBytes, ih]

theorem Memory.readBytes_getElem? (m : Memory) (a n k : Nat) :
    (m.readBytes a n)[k]? = if k < n then some (m.read (a + k)) else none := by
  induction n generalizing a k with
  | zero => simp [Memory.readBytes]
  | succ n ih =>
    cases k with
    | zero => simp [Memory.readBytes]
    | succ k => simp [Memory.readBytes, ih, Nat.add_assoc, Nat.add_comm 1 k]

/-- What a multi-byte store does to the memory: it keeps the canonical form, its bytes read back, and every
other address reads as before. -/
theorem Memory.writeBytes_spec {m : Memory} (hm : m.wf = true) {a : Nat} {bs : List Byte} (h : a + bs.length ≤ 0x1000) :
    (m.writeBytes a bs).wf = true ∧
      ∀ c, (m.writeBytes a bs).read c = if a ≤ c then bs.getD (c - a) (m.read c) else m.read c := by
  induction bs generalizing m a with
  | nil => simp [Memory.writeBytes, hm]
  | cons b bs ih =>
    rw [List.length_cons] at h
    have hw : (m.write a b).wf = true := Memory.write_wfFrom hm (Nat.zero_le a) (by omega)
    obtain ⟨h1, h2⟩ := ih hw (a := a + 1) (by omega)
    refine ⟨h1, fun c => ?_⟩
    rw [Memory.writeBytes, h2 c, Memory.read_write_from hm]
    rcases Nat.lt_trichotomy c a with hlt | heq | hgt
    · rw [if_neg (by omega), if_neg (by omega), if_neg (by omega)]
    · subst heq; simp
    · obtain ⟨k, rfl⟩ : ∃ k, c = a + 1 + k := ⟨c - (a + 1), by omega⟩
      rw [if_pos (by omega), if_neg (by omega), if_pos (by omega)]
      simp [show a + 1 + k - a = k + 1 by omega]

end Sys2Proof.Machine
end

