-- ==== Sys2Proof/Laws/State.lean ====
section
/-!
SUPPORT. One lemma per field and per reading for each update of the state, true by rfl, so that no proof
unfolds a record update; and what a skip and a flag-setting write do to each.
-/
namespace Sys2Proof.Machine

variable (s : State)


@[simp] theorem State.setReg_v (x : Reg) (b : Byte) : (s.setReg x b).v = s.v.set x.val b := rfl
@[simp] theorem State.setReg_i (x : Reg) (b : Byte) : (s.setReg x b).i = s.i := rfl
@[simp] theorem State.setReg_pc (x : Reg) (b : Byte) : (s.setReg x b).pc = s.pc := rfl
@[simp] theorem State.setReg_sp (x : Reg) (b : Byte) : (s.setReg x b).sp = s.sp := rfl
@[simp] theorem State.setReg_stack (x : Reg) (b : Byte) : (s.setReg x b).stack = s.stack := rfl
@[simp] theorem State.setReg_dt (x : Reg) (b : Byte) : (s.setReg x b).dt = s.dt := rfl
@[simp] theorem State.setReg_st (x : Reg) (b : Byte) : (s.setReg x b).st = s.st := rfl
@[simp] theorem State.setReg_ir (x : Reg) (b : Byte) : (s.setReg x b).ir = s.ir := rfl
@[simp] theorem State.setReg_mem (x : Reg) (b : Byte) : (s.setReg x b).mem = s.mem := rfl
@[simp] theorem State.setReg_fb (x : Reg) (b : Byte) : (s.setReg x b).fb = s.fb := rfl
@[simp] theorem State.setReg_keys (x : Reg) (b : Byte) : (s.setReg x b).keys = s.keys := rfl
@[simp] theorem State.setReg_draws (x : Reg) (b : Byte) : (s.setReg x b).draws = s.draws := rfl
@[simp] theorem State.setReg_stackEntry (x : Reg) (b : Byte) (k : Fin 16) : (s.setReg x b).stackEntry k = s.stackEntry k := rfl
@[simp] theorem State.setReg_key (x : Reg) (b : Byte) (k : Fin 16) : (s.setReg x b).key k = s.key k := rfl
@[simp] theorem State.setReg_pixel (x : Reg) (b : Byte) (y : Fin 32) (c : Fin 64) : (s.setReg x b).pixel y c = s.pixel y c := rfl
@[simp] theorem State.setReg_base (x : Reg) (b : Byte) : (s.setReg x b).base = s.base := rfl
@[simp] theorem State.setReg_randomByte (x : Reg) (b : Byte) : (s.setReg x b).randomByte = s.randomByte := rfl

@[simp] theorem State.setPc_v (a : Word) : (s.setPc a).v = s.v := rfl
@[simp] theorem State.setPc_i (a : Word) : (s.setPc a).i = s.i := rfl
@[simp] theorem State.setPc_pc (a : Word) : (s.setPc a).pc = a := rfl
@[simp] theorem State.setPc_sp (a : Word) : (s.setPc a).sp = s.sp := rfl
@[simp] theorem State.setPc_stack (a : Word) : (s.setPc a).stack = s.stack := rfl
@[simp] theorem State.setPc_dt (a : Word) : (s.setPc a).dt = s.dt := rfl
@[simp] theorem State.setPc_st (a : Word) : (s.setPc a).st = s.st := rfl
@[simp] theorem State.setPc_ir (a : Word) : (s.setPc a).ir = s.ir := rfl
@[simp] theorem State.setPc_mem (a : Word) : (s.setPc a).mem = s.mem := rfl
@[simp] theorem State.setPc_fb (a : Word) : (s.setPc a).fb = s.fb := rfl
@[simp] theorem State.setPc_keys (a : Word) : (s.setPc a).keys = s.keys := rfl
@[simp] theorem State.setPc_draws (a : Word) : (s.setPc a).draws = s.draws := rfl
@[simp] theorem State.setPc_reg (a : Word) (r : Reg) : (s.setPc a).reg r = s.reg r := rfl
@[simp] theorem State.setPc_stackEntry (a : Word) (k : Fin 16) : (s.setPc a).stackEntry k = s.stackEntry k := rfl
@[simp] theorem State.setPc_key (a : Word) (k : Fin 16) : (s.setPc a).key k = s.key k := rfl
@[simp] theorem State.setPc_pixel (a : Word) (y : Fin 32) (x : Fin 64) : (s.setPc a).pixel y x = s.pixel y x := rfl
@[simp] theorem State.setPc_base (a : Word) : (s.setPc a).base = s.base := rfl
@[simp] theorem State.setPc_randomByte (a : Word) : (s.setPc a).randomByte = s.randomByte := rfl

@[simp] theorem State.setI_v (w : Word) : (s.setI w).v = s.v := rfl
@[simp] theorem State.setI_i (w : Word) : (s.setI w).i = w := rfl
@[simp] theorem State.setI_pc (w : Word) : (s.setI w).pc = s.pc := rfl
@[simp] theorem State.setI_sp (w : Word) : (s.setI w).sp = s.sp := rfl
@[simp] theorem State.setI_stack (w : Word) : (s.setI w).stack = s.stack := rfl
@[simp] theorem State.setI_dt (w : Word) : (s.setI w).dt = s.dt := rfl
@[simp] theorem State.setI_st (w : Word) : (s.setI w).st = s.st := rfl
@[simp] theorem State.setI_ir (w : Word) : (s.setI w).ir = s.ir := rfl
@[simp] theorem State.setI_mem (w : Word) : (s.setI w).mem = s.mem := rfl
@[simp] theorem State.setI_fb (w : Word) : (s.setI w).fb = s.fb := rfl
@[simp] theorem State.setI_keys (w : Word) : (s.setI w).keys = s.keys := rfl
@[simp] theorem State.setI_draws (w : Word) : (s.setI w).draws = s.draws := rfl
@[simp] theorem State.setI_reg (w : Word) (r : Reg) : (s.setI w).reg r = s.reg r := rfl
@[simp] theorem State.setI_stackEntry (w : Word) (k : Fin 16) : (s.setI w).stackEntry k = s.stackEntry k := rfl
@[simp] theorem State.setI_key (w : Word) (k : Fin 16) : (s.setI w).key k = s.key k := rfl
@[simp] theorem State.setI_pixel (w : Word) (y : Fin 32) (x : Fin 64) : (s.setI w).pixel y x = s.pixel y x := rfl
@[simp] theorem State.setI_randomByte (w : Word) : (s.setI w).randomByte = s.randomByte := rfl

@[simp] theorem State.setDt_v (b : Byte) : (s.setDt b).v = s.v := rfl
@[simp] theorem State.setDt_i (b : Byte) : (s.setDt b).i = s.i := rfl
@[simp] theorem State.setDt_pc (b : Byte) : (s.setDt b).pc = s.pc := rfl
@[simp] theorem State.setDt_sp (b : Byte) : (s.setDt b).sp = s.sp := rfl
@[simp] theorem State.setDt_stack (b : Byte) : (s.setDt b).stack = s.stack := rfl
@[simp] theorem State.setDt_dt (b : Byte) : (s.setDt b).dt = b := rfl
@[simp] theorem State.setDt_st (b : Byte) : (s.setDt b).st = s.st := rfl
@[simp] theorem State.setDt_ir (b : Byte) : (s.setDt b).ir = s.ir := rfl
@[simp] theorem State.setDt_mem (b : Byte) : (s.setDt b).mem = s.mem := rfl
@[simp] theorem State.setDt_fb (b : Byte) : (s.setDt b).fb = s.fb := rfl
@[simp] theorem State.setDt_keys (b : Byte) : (s.setDt b).keys = s.keys := rfl
@[simp] theorem State.setDt_draws (b : Byte) : (s.setDt b).draws = s.draws := rfl
@[simp] theorem State.setDt_reg (b : Byte) (r : Reg) : (s.setDt b).reg r = s.reg r := rfl
@[simp] theorem State.setDt_stackEntry (b : Byte) (k : Fin 16) : (s.setDt b).stackEntry k = s.stackEntry k := rfl
@[simp] theorem State.setDt_key (b : Byte) (k : Fin 16) : (s.setDt b).key k = s.key k := rfl
@[simp] theorem State.setDt_pixel (b : Byte) (y : Fin 32) (x : Fin 64) : (s.setDt b).pixel y x = s.pixel y x := rfl
@[simp] theorem State.setDt_base (b : Byte) : (s.setDt b).base = s.base := rfl
@[simp] theorem State.setDt_randomByte (b : Byte) : (s.setDt b).randomByte = s.randomByte := rfl

@[simp] theorem State.setSt_v (b : Byte) : (s.setSt b).v = s.v := rfl
@[simp] theorem State.setSt_i (b : Byte) : (s.setSt b).i = s.i := rfl
@[simp] theorem State.setSt_pc (b : Byte) : (s.setSt b).pc = s.pc := rfl
@[simp] theorem State.setSt_sp (b : Byte) : (s.setSt b).sp = s.sp := rfl
@[simp] theorem State.setSt_stack (b : Byte) : (s.setSt b).stack = s.stack := rfl
@[simp] theorem State.setSt_dt (b : Byte) : (s.setSt b).dt = s.dt := rfl
@[simp] theorem State.setSt_st (b : Byte) : (s.setSt b).st = b := rfl
@[simp] theorem State.setSt_ir (b : Byte) : (s.setSt b).ir = s.ir := rfl
@[simp] theorem State.setSt_mem (b : Byte) : (s.setSt b).mem = s.mem := rfl
@[simp] theorem State.setSt_fb (b : Byte) : (s.setSt b).fb = s.fb := rfl
@[simp] theorem State.setSt_keys (b : Byte) : (s.setSt b).keys = s.keys := rfl
@[simp] theorem State.setSt_draws (b : Byte) : (s.setSt b).draws = s.draws := rfl
@[simp] theorem State.setSt_reg (b : Byte) (r : Reg) : (s.setSt b).reg r = s.reg r := rfl
@[simp] theorem State.setSt_stackEntry (b : Byte) (k : Fin 16) : (s.setSt b).stackEntry k = s.stackEntry k := rfl
@[simp] theorem State.setSt_key (b : Byte) (k : Fin 16) : (s.setSt b).key k = s.key k := rfl
@[simp] theorem State.setSt_pixel (b : Byte) (y : Fin 32) (x : Fin 64) : (s.setSt b).pixel y x = s.pixel y x := rfl
@[simp] theorem State.setSt_base (b : Byte) : (s.setSt b).base = s.base := rfl
@[simp] theorem State.setSt_randomByte (b : Byte) : (s.setSt b).randomByte = s.randomByte := rfl

@[simp] theorem State.store_v (a : Nat) (bs : List Byte) : (s.store a bs).v = s.v := rfl
@[simp] theorem State.store_i (a : Nat) (bs : List Byte) : (s.store a bs).i = s.i := rfl
@[simp] theorem State.store_pc (a : Nat) (bs : List Byte) : (s.store a bs).pc = s.pc := rfl
@[simp] theorem State.store_sp (a : Nat) (bs : List Byte) : (s.store a bs).sp = s.sp := rfl
@[simp] theorem State.store_stack (a : Nat) (bs : List Byte) : (s.store a bs).stack = s.stack := rfl
@[simp] theorem State.store_dt (a : Nat) (bs : List Byte) : (s.store a bs).dt = s.dt := rfl
@[simp] theorem State.store_st (a : Nat) (bs : List Byte) : (s.store a bs).st = s.st := rfl
@[simp] theorem State.store_ir (a : Nat) (bs : List Byte) : (s.store a bs).ir = s.ir := rfl
@[simp] theorem State.store_mem (a : Nat) (bs : List Byte) : (s.store a bs).mem = s.mem.writeBytes a bs := rfl
@[simp] theorem State.store_fb (a : Nat) (bs : List Byte) : (s.store a bs).fb = s.fb := rfl
@[simp] theorem State.store_keys (a : Nat) (bs : List Byte) : (s.store a bs).keys = s.keys := rfl
@[simp] theorem State.store_draws (a : Nat) (bs : List Byte) : (s.store a bs).draws = s.draws := rfl
@[simp] theorem State.store_reg (a : Nat) (bs : List Byte) (r : Reg) : (s.store a bs).reg r = s.reg r := rfl
@[simp] theorem State.store_stackEntry (a : Nat) (bs : List Byte) (k : Fin 16) : (s.store a bs).stackEntry k = s.stackEntry k := rfl
@[simp] theorem State.store_key (a : Nat) (bs : List Byte) (k : Fin 16) : (s.store a bs).key k = s.key k := rfl
@[simp] theorem State.store_pixel (a : Nat) (bs : List Byte) (y : Fin 32) (x : Fin 64) : (s.store a bs).pixel y x = s.pixel y x := rfl
@[simp] theorem State.store_base (a : Nat) (bs : List Byte) : (s.store a bs).base = s.base := rfl
@[simp] theorem State.store_randomByte (a : Nat) (bs : List Byte) : (s.store a bs).randomByte = s.randomByte := rfl

@[simp] theorem State.setFb_v (fb : Framebuffer) : (s.setFb fb).v = s.v := rfl
@[simp] theorem State.setFb_i (fb : Framebuffer) : (s.setFb fb).i = s.i := rfl
@[simp] theorem State.setFb_pc (fb : Framebuffer) : (s.setFb fb).pc = s.pc := rfl
@[simp] theorem State.setFb_sp (fb : Framebuffer) : (s.setFb fb).sp = s.sp := rfl
@[simp] theorem State.setFb_stack (fb : Framebuffer) : (s.setFb fb).stack = s.stack := rfl
@[simp] theorem State.setFb_dt (fb : Framebuffer) : (s.setFb fb).dt = s.dt := rfl
@[simp] theorem State.setFb_st (fb : Framebuffer) : (s.setFb fb).st = s.st := rfl
@[simp] theorem State.setFb_ir (fb : Framebuffer) : (s.setFb fb).ir = s.ir := rfl
@[simp] theorem State.setFb_mem (fb : Framebuffer) : (s.setFb fb).mem = s.mem := rfl
@[simp] theorem State.setFb_fb (fb : Framebuffer) : (s.setFb fb).fb = fb := rfl
@[simp] theorem State.setFb_keys (fb : Framebuffer) : (s.setFb fb).keys = s.keys := rfl
@[simp] theorem State.setFb_draws (fb : Framebuffer) : (s.setFb fb).draws = s.draws := rfl
@[simp] theorem State.setFb_reg (fb : Framebuffer) (r : Reg) : (s.setFb fb).reg r = s.reg r := rfl
@[simp] theorem State.setFb_stackEntry (fb : Framebuffer) (k : Fin 16) : (s.setFb fb).stackEntry k = s.stackEntry k := rfl
@[simp] theorem State.setFb_key (fb : Framebuffer) (k : Fin 16) : (s.setFb fb).key k = s.key k := rfl
@[simp] theorem State.setFb_base (fb : Framebuffer) : (s.setFb fb).base = s.base := rfl
@[simp] theorem State.setFb_randomByte (fb : Framebuffer) : (s.setFb fb).randomByte = s.randomByte := rfl

@[simp] theorem State.drawn_v : (s.drawn).v = s.v := rfl
@[simp] theorem State.drawn_i : (s.drawn).i = s.i := rfl
@[simp] theorem State.drawn_pc : (s.drawn).pc = s.pc := rfl
@[simp] theorem State.drawn_sp : (s.drawn).sp = s.sp := rfl
@[simp] theorem State.drawn_stack : (s.drawn).stack = s.stack := rfl
@[simp] theorem State.drawn_dt : (s.drawn).dt = s.dt := rfl
@[simp] theorem State.drawn_st : (s.drawn).st = s.st := rfl
@[simp] theorem State.drawn_ir : (s.drawn).ir = s.ir := rfl
@[simp] theorem State.drawn_mem : (s.drawn).mem = s.mem := rfl
@[simp] theorem State.drawn_fb : (s.drawn).fb = s.fb := rfl
@[simp] theorem State.drawn_keys : (s.drawn).keys = s.keys := rfl
@[simp] theorem State.drawn_draws : (s.drawn).draws = s.draws + 1 := rfl
@[simp] theorem State.drawn_reg (r : Reg) : (s.drawn).reg r = s.reg r := rfl
@[simp] theorem State.drawn_stackEntry (k : Fin 16) : (s.drawn).stackEntry k = s.stackEntry k := rfl
@[simp] theorem State.drawn_key (k : Fin 16) : (s.drawn).key k = s.key k := rfl
@[simp] theorem State.drawn_pixel (y : Fin 32) (x : Fin 64) : (s.drawn).pixel y x = s.pixel y x := rfl
@[simp] theorem State.drawn_base : (s.drawn).base = s.base := rfl

@[simp] theorem State.setKeys_v (k : Vector Bool 16) : (s.setKeys k).v = s.v := rfl
@[simp] theorem State.setKeys_i (k : Vector Bool 16) : (s.setKeys k).i = s.i := rfl
@[simp] theorem State.setKeys_pc (k : Vector Bool 16) : (s.setKeys k).pc = s.pc := rfl
@[simp] theorem State.setKeys_sp (k : Vector Bool 16) : (s.setKeys k).sp = s.sp := rfl
@[simp] theorem State.setKeys_stack (k : Vector Bool 16) : (s.setKeys k).stack = s.stack := rfl
@[simp] theorem State.setKeys_dt (k : Vector Bool 16) : (s.setKeys k).dt = s.dt := rfl
@[simp] theorem State.setKeys_st (k : Vector Bool 16) : (s.setKeys k).st = s.st := rfl
@[simp] theorem State.setKeys_ir (k : Vector Bool 16) : (s.setKeys k).ir = s.ir := rfl
@[simp] theorem State.setKeys_mem (k : Vector Bool 16) : (s.setKeys k).mem = s.mem := rfl
@[simp] theorem State.setKeys_fb (k : Vector Bool 16) : (s.setKeys k).fb = s.fb := rfl
@[simp] theorem State.setKeys_keys (k : Vector Bool 16) : (s.setKeys k).keys = k := rfl
@[simp] theorem State.setKeys_draws (k : Vector Bool 16) : (s.setKeys k).draws = s.draws := rfl
@[simp] theorem State.setKeys_reg (k : Vector Bool 16) (r : Reg) : (s.setKeys k).reg r = s.reg r := rfl
@[simp] theorem State.setKeys_stackEntry (k : Vector Bool 16) (j : Fin 16) : (s.setKeys k).stackEntry j = s.stackEntry j := rfl
@[simp] theorem State.setKeys_pixel (k : Vector Bool 16) (y : Fin 32) (x : Fin 64) : (s.setKeys k).pixel y x = s.pixel y x := rfl
@[simp] theorem State.setKeys_base (k : Vector Bool 16) : (s.setKeys k).base = s.base := rfl
@[simp] theorem State.setKeys_randomByte (k : Vector Bool 16) : (s.setKeys k).randomByte = s.randomByte := rfl

@[simp] theorem State.loadRegs_i (a : Nat) (x : Reg) : (s.loadRegs a x).i = s.i := rfl
@[simp] theorem State.loadRegs_pc (a : Nat) (x : Reg) : (s.loadRegs a x).pc = s.pc := rfl
@[simp] theorem State.loadRegs_sp (a : Nat) (x : Reg) : (s.loadRegs a x).sp = s.sp := rfl
@[simp] theorem State.loadRegs_stack (a : Nat) (x : Reg) : (s.loadRegs a x).stack = s.stack := rfl
@[simp] theorem State.loadRegs_dt (a : Nat) (x : Reg) : (s.loadRegs a x).dt = s.dt := rfl
@[simp] theorem State.loadRegs_st (a : Nat) (x : Reg) : (s.loadRegs a x).st = s.st := rfl
@[simp] theorem State.loadRegs_ir (a : Nat) (x : Reg) : (s.loadRegs a x).ir = s.ir := rfl
@[simp] theorem State.loadRegs_mem (a : Nat) (x : Reg) : (s.loadRegs a x).mem = s.mem := rfl
@[simp] theorem State.loadRegs_fb (a : Nat) (x : Reg) : (s.loadRegs a x).fb = s.fb := rfl
@[simp] theorem State.loadRegs_keys (a : Nat) (x : Reg) : (s.loadRegs a x).keys = s.keys := rfl
@[simp] theorem State.loadRegs_draws (a : Nat) (x : Reg) : (s.loadRegs a x).draws = s.draws := rfl
@[simp] theorem State.loadRegs_stackEntry (a : Nat) (x : Reg) (k : Fin 16) : (s.loadRegs a x).stackEntry k = s.stackEntry k := rfl
@[simp] theorem State.loadRegs_key (a : Nat) (x : Reg) (k : Fin 16) : (s.loadRegs a x).key k = s.key k := rfl
@[simp] theorem State.loadRegs_pixel (a : Nat) (x : Reg) (y : Fin 32) (c : Fin 64) : (s.loadRegs a x).pixel y c = s.pixel y c := rfl
@[simp] theorem State.loadRegs_base (a : Nat) (x : Reg) : (s.loadRegs a x).base = s.base := rfl
@[simp] theorem State.loadRegs_randomByte (a : Nat) (x : Reg) : (s.loadRegs a x).randomByte = s.randomByte := rfl

@[simp] theorem State.advance_v : (s.advance).v = s.v := rfl
@[simp] theorem State.advance_i : (s.advance).i = s.i := rfl
@[simp] theorem State.advance_pc : (s.advance).pc = s.pc + 2 := rfl
@[simp] theorem State.advance_sp : (s.advance).sp = s.sp := rfl
@[simp] theorem State.advance_stack : (s.advance).stack = s.stack := rfl
@[simp] theorem State.advance_dt : (s.advance).dt = s.dt := rfl
@[simp] theorem State.advance_st : (s.advance).st = s.st := rfl
@[simp] theorem State.advance_ir : (s.advance).ir = s.fetchWord := rfl
@[simp] theorem State.advance_mem : (s.advance).mem = s.mem := rfl
@[simp] theorem State.advance_fb : (s.advance).fb = s.fb := rfl
@[simp] theorem State.advance_keys : (s.advance).keys = s.keys := rfl
@[simp] theorem State.advance_draws : (s.advance).draws = s.draws := rfl
@[simp] theorem State.advance_reg (r : Reg) : (s.advance).reg r = s.reg r := rfl
@[simp] theorem State.advance_stackEntry (k : Fin 16) : (s.advance).stackEntry k = s.stackEntry k := rfl
@[simp] theorem State.advance_key (k : Fin 16) : (s.advance).key k = s.key k := rfl
@[simp] theorem State.advance_pixel (y : Fin 32) (x : Fin 64) : (s.advance).pixel y x = s.pixel y x := rfl
@[simp] theorem State.advance_base : (s.advance).base = s.base := rfl
@[simp] theorem State.advance_randomByte : (s.advance).randomByte = s.randomByte := rfl

@[simp] theorem tick_v : (tick s).v = s.v := rfl
@[simp] theorem tick_i : (tick s).i = s.i := rfl
@[simp] theorem tick_pc : (tick s).pc = s.pc := rfl
@[simp] theorem tick_sp : (tick s).sp = s.sp := rfl
@[simp] theorem tick_stack : (tick s).stack = s.stack := rfl
@[simp] theorem tick_dt : (tick s).dt = countDown s.dt := rfl
@[simp] theorem tick_st : (tick s).st = countDown s.st := rfl
@[simp] theorem tick_ir : (tick s).ir = s.ir := rfl
@[simp] theorem tick_mem : (tick s).mem = s.mem := rfl
@[simp] theorem tick_fb : (tick s).fb = s.fb := rfl
@[simp] theorem tick_keys : (tick s).keys = s.keys := rfl
@[simp] theorem tick_draws : (tick s).draws = s.draws := rfl
@[simp] theorem tick_reg (r : Reg) : (tick s).reg r = s.reg r := rfl
@[simp] theorem tick_stackEntry (k : Fin 16) : (tick s).stackEntry k = s.stackEntry k := rfl
@[simp] theorem tick_key (k : Fin 16) : (tick s).key k = s.key k := rfl
@[simp] theorem tick_pixel (y : Fin 32) (x : Fin 64) : (tick s).pixel y x = s.pixel y x := rfl
@[simp] theorem tick_base : (tick s).base = s.base := rfl
@[simp] theorem tick_randomByte : (tick s).randomByte = s.randomByte := rfl

@[simp] theorem State.reg_setReg (x r : Reg) (b : Byte) :
    (s.setReg x b).reg r = if r = x then b else s.reg r := by
  simp only [State.reg, State.setReg, Vector.getElem_set, Fin.ext_iff]
  split <;> split <;> first | rfl | omega

@[simp] theorem State.reg_loadRegs (a : Nat) (x r : Reg) :
    (s.loadRegs a x).reg r = if r ≤ x then s.mem.read (a + r.val) else s.reg r := by
  simp [State.reg, State.loadRegs]

@[simp] theorem State.pixel_setFb (fb : Framebuffer) (y : Fin 32) (x : Fin 64) :
    (s.setFb fb).pixel y x = fb.pixelAt y x := rfl

@[simp] theorem State.key_setKeys (k : Vector Bool 16) (j : Fin 16) : (s.setKeys k).key j = k[j.val] := rfl

theorem State.reg_setResultAndFlag (x r : Reg) (b : Byte) (c : Bool) :
    (s.setResultAndFlag x b c).reg r = if r = vf then flagByte c else if r = x then b else s.reg r := by
  simp [State.setResultAndFlag]

@[simp] theorem skipIf_v (c : Bool) : (skipIf c s).v = s.v := by cases c <;> rfl
@[simp] theorem skipIf_i (c : Bool) : (skipIf c s).i = s.i := by cases c <;> rfl
@[simp] theorem skipIf_sp (c : Bool) : (skipIf c s).sp = s.sp := by cases c <;> rfl
@[simp] theorem skipIf_stack (c : Bool) : (skipIf c s).stack = s.stack := by cases c <;> rfl
@[simp] theorem skipIf_dt (c : Bool) : (skipIf c s).dt = s.dt := by cases c <;> rfl
@[simp] theorem skipIf_st (c : Bool) : (skipIf c s).st = s.st := by cases c <;> rfl
@[simp] theorem skipIf_ir (c : Bool) : (skipIf c s).ir = s.ir := by cases c <;> rfl
@[simp] theorem skipIf_mem (c : Bool) : (skipIf c s).mem = s.mem := by cases c <;> rfl
@[simp] theorem skipIf_fb (c : Bool) : (skipIf c s).fb = s.fb := by cases c <;> rfl
@[simp] theorem skipIf_keys (c : Bool) : (skipIf c s).keys = s.keys := by cases c <;> rfl
@[simp] theorem skipIf_draws (c : Bool) : (skipIf c s).draws = s.draws := by cases c <;> rfl
@[simp] theorem skipIf_reg (c : Bool) (r : Reg) : (skipIf c s).reg r = s.reg r := by cases c <;> rfl
@[simp] theorem skipIf_stackEntry (c : Bool) (k : Fin 16) : (skipIf c s).stackEntry k = s.stackEntry k := by cases c <;> rfl
@[simp] theorem skipIf_key (c : Bool) (k : Fin 16) : (skipIf c s).key k = s.key k := by cases c <;> rfl
@[simp] theorem skipIf_pixel (c : Bool) (y : Fin 32) (x : Fin 64) : (skipIf c s).pixel y x = s.pixel y x := by cases c <;> rfl
@[simp] theorem skipIf_base (c : Bool) : (skipIf c s).base = s.base := by cases c <;> rfl
@[simp] theorem skipIf_randomByte (c : Bool) : (skipIf c s).randomByte = s.randomByte := by cases c <;> rfl
@[simp] theorem skipIf_pc (c : Bool) : (skipIf c s).pc = if c then s.pc + 2 else s.pc := by cases c <;> rfl

/-- A skip is one write of PC. -/
theorem skipIf_eq_setPc (c : Bool) : skipIf c s = s.setPc (if c then s.pc + 2 else s.pc) := by cases c <;> rfl

@[simp] theorem State.setResultAndFlag_i (x : Reg) (b : Byte) (c : Bool) : (s.setResultAndFlag x b c).i = s.i := rfl
@[simp] theorem State.setResultAndFlag_pc (x : Reg) (b : Byte) (c : Bool) : (s.setResultAndFlag x b c).pc = s.pc := rfl
@[simp] theorem State.setResultAndFlag_sp (x : Reg) (b : Byte) (c : Bool) : (s.setResultAndFlag x b c).sp = s.sp := rfl
@[simp] theorem State.setResultAndFlag_stack (x : Reg) (b : Byte) (c : Bool) : (s.setResultAndFlag x b c).stack = s.stack := rfl
@[simp] theorem State.setResultAndFlag_dt (x : Reg) (b : Byte) (c : Bool) : (s.setResultAndFlag x b c).dt = s.dt := rfl
@[simp] theorem State.setResultAndFlag_st (x : Reg) (b : Byte) (c : Bool) : (s.setResultAndFlag x b c).st = s.st := rfl
@[simp] theorem State.setResultAndFlag_ir (x : Reg) (b : Byte) (c : Bool) : (s.setResultAndFlag x b c).ir = s.ir := rfl
@[simp] theorem State.setResultAndFlag_mem (x : Reg) (b : Byte) (c : Bool) : (s.setResultAndFlag x b c).mem = s.mem := rfl
@[simp] theorem State.setResultAndFlag_fb (x : Reg) (b : Byte) (c : Bool) : (s.setResultAndFlag x b c).fb = s.fb := rfl
@[simp] theorem State.setResultAndFlag_keys (x : Reg) (b : Byte) (c : Bool) : (s.setResultAndFlag x b c).keys = s.keys := rfl
@[simp] theorem State.setResultAndFlag_draws (x : Reg) (b : Byte) (c : Bool) : (s.setResultAndFlag x b c).draws = s.draws := rfl
@[simp] theorem State.setResultAndFlag_stackEntry (x : Reg) (b : Byte) (c : Bool) (k : Fin 16) : (s.setResultAndFlag x b c).stackEntry k = s.stackEntry k := rfl
@[simp] theorem State.setResultAndFlag_key (x : Reg) (b : Byte) (c : Bool) (k : Fin 16) : (s.setResultAndFlag x b c).key k = s.key k := rfl
@[simp] theorem State.setResultAndFlag_pixel (x : Reg) (b : Byte) (c : Bool) (y : Fin 32) (k : Fin 64) : (s.setResultAndFlag x b c).pixel y k = s.pixel y k := rfl
@[simp] theorem State.setResultAndFlag_base (x : Reg) (b : Byte) (c : Bool) : (s.setResultAndFlag x b c).base = s.base := rfl
@[simp] theorem State.setResultAndFlag_randomByte (x : Reg) (b : Byte) (c : Bool) : (s.setResultAndFlag x b c).randomByte = s.randomByte := rfl

end Sys2Proof.Machine
end

