-- ==== Sys2Proof/Laws/Ops.lean ====
section
/-!
SUPPORT. One lemma for each shared operation that says everything it can do: the range check, CALL's push,
RET's pop, the key index, the least key, the tick, the fetch and the step.
-/
namespace Sys2Proof.Machine

theorem checkRange_ok {a n : Nat} (h : n = 0 ∨ a + n ≤ 0x1000) (go : Result) : checkRange a n go = go := if_pos h

theorem checkRange_fault {a n : Nat} (h : ¬ (n = 0 ∨ a + n ≤ 0x1000)) (go : Result) :
    checkRange a n go = .fault (.addressFault (max a 0x1000)) := if_neg h

theorem checkRange_eq (a n : Nat) (go : Result) :
    checkRange a n go = match rangeFault a n with
      | some f => .fault f
      | none => go := by
  unfold checkRange rangeFault raise
  by_cases h : n = 0 ∨ a + n ≤ 0x1000
  · rw [if_pos h, if_neg (by omega)]
  · rw [if_neg h, if_pos (by omega)]

theorem checkRange_next {a n : Nat} {go : Result} {t : State} (h : checkRange a n go = .next t) :
    (n = 0 ∨ a + n ≤ 0x1000) ∧ go = .next t := by
  unfold checkRange raise at h
  split at h
  · exact ⟨‹_›, h⟩
  · cases h

theorem pushAndGo_ok {s : State} (h : s.sp.val < 16) (target : Word) :
    pushAndGo target s =
      .next { s with stack := s.stack.set s.sp.val s.pc, sp := ⟨s.sp.val + 1, by omega⟩, pc := target } := dif_pos h

theorem pushAndGo_full {s : State} (h : ¬ s.sp.val < 16) (target : Word) :
    pushAndGo target s = .fault (.stackOverflow (s.pc - 2)) := dif_neg h

theorem pushAndGo_next {s t : State} {target : Word} (h : pushAndGo target s = .next t) :
    s.sp.val < 16 ∧ t.pc = target ∧ t.sp.val = s.sp.val + 1 ∧
      (∀ k, t.stackEntry k = if k.val = s.sp.val then s.pc else s.stackEntry k) ∧
      SameExcept [.pc, .sp, .stack] s t := by
  by_cases hs : s.sp.val < 16
  · rw [pushAndGo_ok hs] at h
    cases h
    refine ⟨hs, rfl, rfl, fun k => ?_, fun p hp => ?_⟩
    · simp only [State.stackEntry, Vector.getElem_set, eq_comm]
    · cases p <;> simp_all [Part.same, State.reg, State.key, State.pixel]
  · rw [pushAndGo_full hs] at h
    cases h

theorem popAndGo_ok {s : State} (h : ¬ s.sp.val = 0) :
    popAndGo s = .next { s with sp := ⟨s.sp.val - 1, by omega⟩, pc := s.stack[s.sp.val - 1] } := dif_neg h

theorem popAndGo_empty {s : State} (h : s.sp.val = 0) :
    popAndGo s = .fault (.stackUnderflow (s.pc - 2)) := dif_pos h

theorem popAndGo_next {s t : State} (h : popAndGo s = .next t) :
    ∃ k : Fin 16, s.sp.val = k.val + 1 ∧ t.pc = s.stackEntry k ∧ t.sp.val = k.val ∧ SameExcept [.pc, .sp] s t := by
  by_cases hs : s.sp.val = 0
  · rw [popAndGo_empty hs] at h
    cases h
  · rw [popAndGo_ok hs] at h
    cases h
    refine ⟨⟨s.sp.val - 1, by omega⟩, ?_, rfl, rfl, fun p hp => ?_⟩
    · show s.sp.val = s.sp.val - 1 + 1
      omega
    · cases p <;> simp_all [Part.same, State.reg, State.key, State.pixel, State.stackEntry]

theorem withKeyIndex_ok {b : Byte} (h : b.toNat < 16) (go : Fin 16 → Result) :
    withKeyIndex b go = go ⟨b.toNat, h⟩ := dif_pos h

theorem withKeyIndex_fault {b : Byte} (h : ¬ b.toNat < 16) (go : Fin 16 → Result) :
    withKeyIndex b go = .fault (.keyIndexFault b) := dif_neg h

/-- The least pressed key: it is pressed and no lower one is. -/
theorem leastKey_some {s : State} {k : Fin 16} (h : s.leastKey = some k) :
    s.key k = true ∧ ∀ j, j < k → s.key j = false := by
  unfold State.leastKey at h
  rw [List.find?_eq_some_iff_getElem] at h
  obtain ⟨hk, n, hn, hnk, hlt⟩ := h
  refine ⟨hk, fun j hj => ?_⟩
  have hkn : k.val = n := by rw [← hnk]; simp
  have := hlt j.val (by rw [← hkn]; exact hj)
  simpa using this

theorem leastKey_none {s : State} : s.leastKey = none ↔ ∀ k, s.key k = false := by
  simp [State.leastKey, List.find?_eq_none, List.mem_finRange]

@[simp] theorem countDown_toNat (t : Byte) : (countDown t).toNat = t.toNat - 1 := by
  unfold countDown
  split
  · subst_vars; rfl
  · have : t.toNat ≠ 0 := fun h => ‹¬t = 0› (BitVec.eq_of_toNat_eq (by simpa using h))
    rw [BitVec.toNat_sub]
    have := t.isLt
    simp
    omega

theorem finish_next {r : Result} {t : State} (h : finish r = .next t) : ∃ u, r = .next u ∧ t = tick u := by
  cases r with
  | next u => cases h; exact ⟨u, rfl, rfl⟩
  | fault f => cases h
  | refused f => cases h

/-- What a step that goes on did: it fetched in memory and either ran the decoded instruction or, on an unknown
word, nothing; then the timers ticked. -/
theorem step_next {s t : State} (h : step s = .next t) :
    s.pc.toNat ≤ 0xFFE ∧ ∃ u, t = tick u ∧
      ((∃ i, decode s.fetchWord = .ok i ∧ exec i s.advance = .next u) ∨
        (∃ e, decode s.fetchWord = .error e ∧ u = s.advance)) := by
  obtain ⟨hr, hf⟩ := checkRange_next h
  obtain ⟨u, hu, rfl⟩ := finish_next hf
  refine ⟨by omega, u, rfl, ?_⟩
  unfold executeWord at hu
  split at hu
  · exact .inl ⟨_, ‹_›, hu⟩
  · cases hu; exact .inr ⟨_, ‹_›, rfl⟩

theorem runSamples_cons_next {keys : Vector Bool 16} {samples : List (Vector Bool 16)} {s t : State}
    (h : stepWith keys s = .next t) : runSamples (keys :: samples) s = runSamples samples t := by
  simp only [runSamples, h]

/-- A run over samples that goes on: its first step did, and so did the rest from there. -/
theorem runSamples_cons_inv {keys : Vector Bool 16} {samples : List (Vector Bool 16)} {s t : State}
    (h : runSamples (keys :: samples) s = .next t) :
    ∃ u, stepWith keys s = .next u ∧ runSamples samples u = .next t := by
  unfold runSamples at h
  split at h
  · exact ⟨_, ‹_›, h⟩
  · cases h
  · cases h

/-- The memory of a reset: canonical, the block's font at 0x050..0x09F and zero elsewhere. -/
theorem resetWith_mem (glyphs : FontTable) :
    (State.resetWith glyphs).mem.wf = true ∧
      (∀ k : Fin 80, (State.resetWith glyphs).mem.read (0x050 + k.val) = glyphs[k.val]) ∧
      ∀ a, a < 0x050 ∨ 0x09F < a → (State.resetWith glyphs).mem.read a = 0 := by
  have hw := Memory.writeBytes_spec (m := []) rfl (a := 0x050) (bs := glyphs.toList) (by simp)
  refine ⟨hw.1, fun k => (hw.2 _).trans ?_, fun a ha => (hw.2 a).trans ?_⟩
  · simp
  · have hu : Memory.read [] a = 0 := Memory.unlisted_outside_font ha
    split
    · rw [List.getD_eq_default _ _ (by simp; omega), hu]
    · exact hu

theorem resetWith_defaultFont : State.resetWith defaultFont = State.reset := by decide

theorem wordOfBytes_toNat (hi lo : Byte) : (wordOfBytes hi lo).toNat = hi.toNat * 256 + lo.toNat := by
  have := lo.isLt
  simp only [wordOfBytes, BitVec.toNat_append]
  rw [← Nat.shiftLeft_add_eq_or_of_lt this, Nat.shiftLeft_eq]

end Sys2Proof.Machine
end

