-- ==== Sys2Proof/Laws/Display.lean ====
section
/-!
SUPPORT. What the sprite scan does, pixel by pixel: a pixel under a 1 bit is toggled, every other one is as
before, and the collision is a 1 bit on a pixel that was ON (44_display.md R131, R133).
-/
namespace Sys2Proof.Machine

theorem Framebuffer.pixelAt_toggle (fb : Framebuffer) (y y' : Fin 32) (x x' : Fin 64) :
    (fb.toggle y x).pixelAt y' x' = if y' = y ∧ x' = x then !fb.pixelAt y' x' else fb.pixelAt y' x' := by
  have hx := x'.isLt
  by_cases hy : y' = y
  · subst hy
    by_cases hxx : x' = x
    · subst hxx
      simp [Framebuffer.toggle, Framebuffer.pixelAt]
    · have hne : x'.val ≠ x.val := fun h => hxx (Fin.ext h)
      simp only [Framebuffer.toggle, Framebuffer.pixelAt, hxx]
      by_cases hlt : x'.val < x.val
      · simp [hlt]
      · have : x'.val - x.val ≠ 0 := by omega
        simp [this]
  · have hne : y.val ≠ y'.val := fun h => hy (Fin.ext h.symm)
    simp [Framebuffer.toggle, Framebuffer.pixelAt, hy, Vector.getElem_set_ne _ _ hne]

/-- The pixels that a scan with the set `cov` of covered pixels leaves, and the collision it reports. -/
structure ScanSpec (cov : Fin 32 → Fin 64 → Prop) (cv cv' : Canvas) : Prop where
  covered : ∀ y x, cov y x → cv'.1.pixelAt y x = !cv.1.pixelAt y x
  untouched : ∀ y x, ¬ cov y x → cv'.1.pixelAt y x = cv.1.pixelAt y x
  collision : cv'.2 = true ↔ cv.2 = true ∨ ∃ y x, cov y x ∧ cv.1.pixelAt y x = true

theorem ScanSpec.refl {cov : Fin 32 → Fin 64 → Prop} (h : ∀ y x, ¬ cov y x) (cv : Canvas) : ScanSpec cov cv cv :=
  ⟨fun y x c => absurd c (h y x), fun _ _ _ => rfl, by simp [h]⟩

/-- Two scans over disjoint sets of pixels make one over their union. -/
theorem ScanSpec.trans {c₁ c₂ cov : Fin 32 → Fin 64 → Prop} {a b d : Canvas} (h₁ : ScanSpec c₁ a b) (h₂ : ScanSpec c₂ b d)
    (hd : ∀ y x, c₁ y x → ¬ c₂ y x) (hu : ∀ y x, cov y x ↔ c₁ y x ∨ c₂ y x) : ScanSpec cov a d := by
  refine ⟨fun y x h => ?_, fun y x h => ?_, ?_⟩
  · rcases (hu y x).1 h with h | h
    · rw [h₂.untouched y x (hd y x h), h₁.covered y x h]
    · rw [h₂.covered y x h, h₁.untouched y x fun g => hd y x g h]
  · rw [hu, not_or] at h
    rw [h₂.untouched y x h.2, h₁.untouched y x h.1]
  · rw [h₂.collision, h₁.collision, or_assoc]
    refine or_congr_right ⟨?_, ?_⟩
    · rintro (⟨y, x, c, p⟩ | ⟨y, x, c, p⟩)
      · exact ⟨y, x, (hu y x).2 (.inl c), p⟩
      · rw [h₁.untouched y x fun g => hd y x g c] at p
        exact ⟨y, x, (hu y x).2 (.inr c), p⟩
    · rintro ⟨y, x, c, p⟩
      rcases (hu y x).1 c with c | c
      · exact .inl ⟨y, x, c, p⟩
      · refine .inr ⟨y, x, c, ?_⟩
        rwa [h₁.untouched y x fun g => hd y x g c]

/-- The pixel that bit `7 - c` of byte `b` covers on row `y`, if the bit is 1 and the pixel on the screen. -/
def bitCovers (b : Byte) (x0 y c : Nat) (Y : Fin 32) (X : Fin 64) : Prop :=
  Y.val = y ∧ X.val = x0 + c ∧ b.getLsbD (7 - c) = true

theorem scanBit_spec (b : Byte) (x0 y c : Nat) (cv : Canvas) :
    ScanSpec (bitCovers b x0 y c) cv (scanBit b x0 y cv c) := by
  unfold scanBit
  split
  · rename_i h
    split
    · rename_i hb
      have hcov : ∀ Y X, bitCovers b x0 y c Y X ↔ Y = ⟨y, by omega⟩ ∧ X = ⟨x0 + c, by omega⟩ := by
        intro Y X
        simp [bitCovers, hb, Fin.ext_iff]
      refine ⟨fun Y X g => ?_, fun Y X g => ?_, ?_⟩
      · rw [Framebuffer.pixelAt_toggle, if_pos ((hcov Y X).1 g)]
      · rw [Framebuffer.pixelAt_toggle, if_neg fun k => g ((hcov Y X).2 k)]
      · rw [Bool.or_eq_true]
        refine or_congr_right ⟨fun p => ⟨_, _, (hcov _ _).2 ⟨rfl, rfl⟩, p⟩, ?_⟩
        rintro ⟨Y, X, g, p⟩
        obtain ⟨rfl, rfl⟩ := (hcov Y X).1 g
        exact p
    · exact ScanSpec.refl (fun Y X g => ‹¬ _› g.2.2) cv
  · rename_i h
    exact ScanSpec.refl (fun Y X g => h ⟨by have := Y.isLt; have := g.1; omega, by have := X.isLt; have := g.2.1; omega⟩) cv

theorem scanBits_spec (b : Byte) (x0 y n : Nat) (cv : Canvas) :
    ScanSpec (fun Y X => ∃ c, c < n ∧ bitCovers b x0 y c Y X) cv ((List.range n).foldl (scanBit b x0 y) cv) := by
  induction n with
  | zero => exact ScanSpec.refl (fun _ _ ⟨_, h, _⟩ => absurd h (Nat.not_lt_zero _)) cv
  | succ n ih =>
    rw [List.range_succ, List.foldl_append]
    refine ScanSpec.trans ih (scanBit_spec b x0 y n _) ?_ ?_
    · rintro Y X ⟨c, hc, _, h, _⟩ ⟨_, h', _⟩
      omega
    · intro Y X
      constructor
      · rintro ⟨c, hc, h⟩
        rcases Nat.lt_succ_iff_lt_or_eq.1 hc with hc | rfl
        · exact .inl ⟨c, hc, h⟩
        · exact .inr h
      · rintro (⟨c, hc, h⟩ | h)
        · exact ⟨c, by omega, h⟩
        · exact ⟨n, by omega, h⟩

theorem spriteCovers_cons {b : Byte} {bs : List Byte} {x0 y0 : Nat} {y : Fin 32} {x : Fin 64} :
    spriteCovers (b :: bs) x0 y0 y x ↔
      (∃ c, c < 8 ∧ bitCovers b x0 y0 c y x) ∨ spriteCovers bs x0 (y0 + 1) y x := by
  unfold spriteCovers bitCovers
  constructor
  · rintro ⟨h1, h2, h3, e, h4, h5⟩
    rcases Nat.eq_or_lt_of_le h1 with h | h
    · have : y.val - y0 = 0 := by omega
      rw [this] at h4
      cases h4
      exact .inl ⟨x.val - x0, by omega, h.symm, by omega, h5⟩
    · have : y.val - y0 = y.val - (y0 + 1) + 1 := by omega
      rw [this, List.getElem?_cons_succ] at h4
      exact .inr ⟨by omega, h2, h3, e, h4, h5⟩
  · rintro (⟨c, hc, h1, h2, h3⟩ | ⟨h1, h2, h3, e, h4, h5⟩)
    · refine ⟨by omega, by omega, by omega, b, ?_, ?_⟩
      · have : y.val - y0 = 0 := by omega
        simp [this]
      · have : x.val - x0 = c := by omega
        rwa [this]
    · refine ⟨by omega, h2, h3, e, ?_, h5⟩
      have : y.val - y0 = y.val - (y0 + 1) + 1 := by omega
      rw [this, List.getElem?_cons_succ]
      exact h4

/-- The whole scan: pixels under a 1 bit are toggled, the others unchanged, and the collision is a covered pixel
that was ON. -/
theorem scanSprite_spec (x0 y0 : Nat) (bytes : List Byte) (cv : Canvas) :
    ScanSpec (spriteCovers bytes x0 y0) cv (scanSprite x0 y0 bytes cv) := by
  induction bytes generalizing y0 cv with
  | nil => exact ScanSpec.refl (by simp [spriteCovers]) cv
  | cons b bs ih =>
    rw [scanSprite]
    refine ScanSpec.trans (scanBits_spec b x0 y0 8 cv) (ih (y0 + 1) _) ?_ fun _ _ => spriteCovers_cons
    rintro Y X ⟨c, _, h, _⟩ ⟨h', _⟩
    omega

@[simp] theorem Framebuffer.pixelAt_replicate_zero (y : Fin 32) (x : Fin 64) :
    Framebuffer.pixelAt (Vector.replicate 32 0#64) y x = false := by
  simp [Framebuffer.pixelAt]

end Sys2Proof.Machine
end

