-- ==== Sys2Proof/Laws/PerInstr.lean ====
section
/-!
SUPPORT. The family EncodesFamily: the word the encoder writes for an instruction has the family nibble of
the instruction's row in the table of 30_encoding.md R55, one lemma per constructor.
-/
namespace Sys2Proof.Laws

/-- FAM of the row of R55 that stands for an instruction. -/
def EncodesFamily.family : Instr → BitVec 4
  | .cls | .ret => 0x0
  | .jpAddr _ => 0x1
  | .callAddr _ => 0x2
  | .seVxByte _ _ => 0x3
  | .sneVxByte _ _ => 0x4
  | .seVxVy _ _ => 0x5
  | .ldVxByte _ _ => 0x6
  | .addVxByte _ _ => 0x7
  | .ldVxVy _ _ | .orVxVy _ _ | .andVxVy _ _ | .xorVxVy _ _ | .addVxVy _ _ | .subVxVy _ _ => 0x8
  | .shrVx _ | .subnVxVy _ _ | .shlVx _ => 0x8
  | .sneVxVy _ _ => 0x9
  | .ldIAddr _ => 0xA
  | .jpV0Addr _ => 0xB
  | .rndVxByte _ _ => 0xC
  | .drwVxVyN _ _ _ => 0xD
  | .skpVx _ | .sknpVx _ => 0xE
  | .ldVxDt _ | .ldVxK _ | .ldDtVx _ | .ldStVx _ | .addIVx _ | .ldFVx _ | .ldBVx _ | .ldMemVx _ | .ldVxMem _ => 0xF

/-- The encoder writes the family of the instruction's row (R52, R55). -/
def EncodesFamily.Statement (i : Instr) : Prop := famOf (encode i) = EncodesFamily.family i

theorem EncodesFamily.cls : EncodesFamily.Statement .cls := by
  unfold EncodesFamily.Statement
  decide

theorem EncodesFamily.ret : EncodesFamily.Statement .ret := by
  unfold EncodesFamily.Statement
  decide

theorem EncodesFamily.jpAddr (nnn : Addr12) : EncodesFamily.Statement (.jpAddr nnn) := famOf_wordA _ _

theorem EncodesFamily.callAddr (nnn : Addr12) : EncodesFamily.Statement (.callAddr nnn) := famOf_wordA _ _

theorem EncodesFamily.seVxByte (x : Reg) (kk : Byte) : EncodesFamily.Statement (.seVxByte x kk) := famOf_wordXK _ _ _

theorem EncodesFamily.sneVxByte (x : Reg) (kk : Byte) : EncodesFamily.Statement (.sneVxByte x kk) := famOf_wordXK _ _ _

theorem EncodesFamily.seVxVy (x y : Reg) : EncodesFamily.Statement (.seVxVy x y) := famOf_wordXYN _ _ _ _

theorem EncodesFamily.sneVxVy (x y : Reg) : EncodesFamily.Statement (.sneVxVy x y) := famOf_wordXYN _ _ _ _

theorem EncodesFamily.ldVxByte (x : Reg) (kk : Byte) : EncodesFamily.Statement (.ldVxByte x kk) := famOf_wordXK _ _ _

theorem EncodesFamily.addVxByte (x : Reg) (kk : Byte) : EncodesFamily.Statement (.addVxByte x kk) := famOf_wordXK _ _ _

theorem EncodesFamily.ldVxVy (x y : Reg) : EncodesFamily.Statement (.ldVxVy x y) := famOf_wordXYN _ _ _ _

theorem EncodesFamily.orVxVy (x y : Reg) : EncodesFamily.Statement (.orVxVy x y) := famOf_wordXYN _ _ _ _

theorem EncodesFamily.andVxVy (x y : Reg) : EncodesFamily.Statement (.andVxVy x y) := famOf_wordXYN _ _ _ _

theorem EncodesFamily.xorVxVy (x y : Reg) : EncodesFamily.Statement (.xorVxVy x y) := famOf_wordXYN _ _ _ _

theorem EncodesFamily.addVxVy (x y : Reg) : EncodesFamily.Statement (.addVxVy x y) := famOf_wordXYN _ _ _ _

theorem EncodesFamily.subVxVy (x y : Reg) : EncodesFamily.Statement (.subVxVy x y) := famOf_wordXYN _ _ _ _

theorem EncodesFamily.shrVx (x : Reg) : EncodesFamily.Statement (.shrVx x) := famOf_wordXYN _ _ _ _

theorem EncodesFamily.subnVxVy (x y : Reg) : EncodesFamily.Statement (.subnVxVy x y) := famOf_wordXYN _ _ _ _

theorem EncodesFamily.shlVx (x : Reg) : EncodesFamily.Statement (.shlVx x) := famOf_wordXYN _ _ _ _

theorem EncodesFamily.ldIAddr (nnn : Addr12) : EncodesFamily.Statement (.ldIAddr nnn) := famOf_wordA _ _

theorem EncodesFamily.jpV0Addr (nnn : Addr12) : EncodesFamily.Statement (.jpV0Addr nnn) := famOf_wordA _ _

theorem EncodesFamily.rndVxByte (x : Reg) (kk : Byte) : EncodesFamily.Statement (.rndVxByte x kk) := famOf_wordXK _ _ _

theorem EncodesFamily.drwVxVyN (x y : Reg) (n : Nat) : EncodesFamily.Statement (.drwVxVyN x y n) := famOf_wordXYN _ _ _ _

theorem EncodesFamily.skpVx (x : Reg) : EncodesFamily.Statement (.skpVx x) := famOf_wordXK _ _ _

theorem EncodesFamily.sknpVx (x : Reg) : EncodesFamily.Statement (.sknpVx x) := famOf_wordXK _ _ _

theorem EncodesFamily.ldVxDt (x : Reg) : EncodesFamily.Statement (.ldVxDt x) := famOf_wordXK _ _ _

theorem EncodesFamily.ldVxK (x : Reg) : EncodesFamily.Statement (.ldVxK x) := famOf_wordXK _ _ _

theorem EncodesFamily.ldDtVx (x : Reg) : EncodesFamily.Statement (.ldDtVx x) := famOf_wordXK _ _ _

theorem EncodesFamily.ldStVx (x : Reg) : EncodesFamily.Statement (.ldStVx x) := famOf_wordXK _ _ _

theorem EncodesFamily.addIVx (x : Reg) : EncodesFamily.Statement (.addIVx x) := famOf_wordXK _ _ _

theorem EncodesFamily.ldFVx (x : Reg) : EncodesFamily.Statement (.ldFVx x) := famOf_wordXK _ _ _

theorem EncodesFamily.ldBVx (x : Reg) : EncodesFamily.Statement (.ldBVx x) := famOf_wordXK _ _ _

theorem EncodesFamily.ldMemVx (x : Reg) : EncodesFamily.Statement (.ldMemVx x) := famOf_wordXK _ _ _

theorem EncodesFamily.ldVxMem (x : Reg) : EncodesFamily.Statement (.ldVxMem x) := famOf_wordXK _ _ _

end Sys2Proof.Laws
end

