-- ==== Sys2Proof/Tests/Slice0.lean ====
section
/-!
SUPPORT. Tests: well-formedness, decoding of words written out from the encodings of 30_encoding.md, vectors
of 95_test_vectors.md (each theorem names its vector), and a witness for the hypotheses of each statement.
-/
namespace Sys2Proof.Tests

open Sys2Proof.Machine

/-! ## Helpers -/

/-- The state after one step of the word `w` placed at PC. -/
def after (w : Nat) (s : State) : Option State :=
  match step (s.withFetchWord 16 w) with
  | .next t => some t
  | .fault _ => none
  | .refused _ => none

/-- The fault of one step of the word `w` placed at PC. -/
def faultOf (w : Nat) (s : State) : Option Fault :=
  match step (s.withFetchWord 16 w) with
  | .next _ => none
  | .fault f => some f
  | .refused _ => none

def isNext (r : Result) : Bool :=
  match r with
  | .next _ => true
  | .fault _ => false
  | .refused _ => false

/-- Reset with a register set. -/
def withReg (x : Reg) (b : Byte) : State := State.reset.setReg x b

/-- Reset with two registers set. -/
def withRegs (x : Reg) (b : Byte) (y : Reg) (c : Byte) : State := (withReg x b).setReg y c

/-- `s` with the pixel (x, y) ON. -/
def lit (x : Fin 64) (y : Fin 32) (s : State) : State := s.setFb (s.fb.toggle y x)

/-- `s` with one key down. -/
def press (k : Fin 16) (s : State) : State := s.setKeys (s.keys.set k.val true)

/-- `s` with SP and one stack entry. -/
def withStack (sp : Fin 17) (k : Fin 16) (w : Word) (s : State) : State :=
  { s with sp := sp, stack := s.stack.set k.val w }

/-! ## Well-formedness -/

theorem test_wf_row_count_15 : (Instr.drwVxVyN 1 2 15).wellFormed = true := by decide
theorem test_wf_refuses_row_count_16 : (Instr.drwVxVyN 1 2 16).wellFormed = false := by decide

/-! ## Decoding: words from the bits of R55 -/

theorem test_decode_cls : decode 0b0000_0000_1110_0000#16 = .ok .cls := by decide
theorem test_decode_ret : decode 0b0000_0000_1110_1110#16 = .ok .ret := by decide
theorem test_decode_jp : decode 0b0001_1010_1011_1100#16 = .ok (.jpAddr 0xABC) := by decide
theorem test_decode_call : decode 0b0010_0011_0000_0000#16 = .ok (.callAddr 0x300) := by decide
theorem test_decode_se_byte : decode 0b0011_1010_0000_0101#16 = .ok (.seVxByte 10 5) := by decide
theorem test_decode_sne_byte : decode 0b0100_1010_0000_0101#16 = .ok (.sneVxByte 10 5) := by decide
theorem test_decode_se_reg : decode 0b0101_0001_0010_0000#16 = .ok (.seVxVy 1 2) := by decide
theorem test_decode_sne_reg : decode 0b1001_0001_0010_0000#16 = .ok (.sneVxVy 1 2) := by decide
theorem test_decode_ld_byte : decode 0b0110_1010_0000_0101#16 = .ok (.ldVxByte 10 5) := by decide
theorem test_decode_add_byte : decode 0b0111_1010_0000_0011#16 = .ok (.addVxByte 10 3) := by decide
theorem test_decode_ld_reg : decode 0b1000_0001_0010_0000#16 = .ok (.ldVxVy 1 2) := by decide
theorem test_decode_or : decode 0b1000_0001_0010_0001#16 = .ok (.orVxVy 1 2) := by decide
theorem test_decode_and : decode 0b1000_0001_0010_0010#16 = .ok (.andVxVy 1 2) := by decide
theorem test_decode_xor : decode 0b1000_0001_0010_0011#16 = .ok (.xorVxVy 1 2) := by decide
theorem test_decode_add_reg : decode 0b1000_0001_0010_0100#16 = .ok (.addVxVy 1 2) := by decide
theorem test_decode_sub : decode 0b1000_0001_0010_0101#16 = .ok (.subVxVy 1 2) := by decide
theorem test_decode_shr : decode 0b1000_0001_0010_0110#16 = .ok (.shrVx 1) := by decide
theorem test_decode_subn : decode 0b1000_0001_0010_0111#16 = .ok (.subnVxVy 1 2) := by decide
theorem test_decode_shl : decode 0b1000_0001_0010_1110#16 = .ok (.shlVx 1) := by decide
theorem test_decode_ld_i : decode 0b1010_0011_0000_0000#16 = .ok (.ldIAddr 0x300) := by decide
theorem test_decode_jp_v0 : decode 0b1011_0011_0000_0000#16 = .ok (.jpV0Addr 0x300) := by decide
theorem test_decode_rnd : decode 0b1100_0011_0000_1111#16 = .ok (.rndVxByte 3 0x0F) := by decide
theorem test_decode_drw : decode 0b1101_0001_0010_0101#16 = .ok (.drwVxVyN 1 2 5) := by decide
theorem test_decode_skp : decode 0b1110_0010_1001_1110#16 = .ok (.skpVx 2) := by decide
theorem test_decode_sknp : decode 0b1110_0010_1010_0001#16 = .ok (.sknpVx 2) := by decide
theorem test_decode_ld_vx_dt : decode 0b1111_0011_0000_0111#16 = .ok (.ldVxDt 3) := by decide
theorem test_decode_ld_vx_k : decode 0b1111_0011_0000_1010#16 = .ok (.ldVxK 3) := by decide
theorem test_decode_ld_dt : decode 0b1111_0011_0001_0101#16 = .ok (.ldDtVx 3) := by decide
theorem test_decode_ld_st : decode 0b1111_0011_0001_1000#16 = .ok (.ldStVx 3) := by decide
theorem test_decode_add_i : decode 0b1111_0011_0001_1110#16 = .ok (.addIVx 3) := by decide
theorem test_decode_ld_f : decode 0b1111_0011_0010_1001#16 = .ok (.ldFVx 3) := by decide
theorem test_decode_ld_b : decode 0b1111_0011_0011_0011#16 = .ok (.ldBVx 3) := by decide
theorem test_decode_ld_mem_vx : decode 0b1111_0011_0101_0101#16 = .ok (.ldMemVx 3) := by decide
theorem test_decode_ld_vx_mem : decode 0b1111_0011_0110_0101#16 = .ok (.ldVxMem 3) := by decide

/-- R54, T9, T16, K7, K8: bits that are not inspected. -/
theorem test_decode_unused_bits : decode 0x0FFE = .ok .ret ∧ decode 0x512F = .ok (.seVxVy 1 2) ∧
    decode 0xE20E = .ok (.skpVx 2) ∧ decode 0xE2F1 = .ok (.sknpVx 2) := by decide

/-- R58, X1 to X7: unknown words. -/
theorem test_decode_unknown : decode 0x00E1 = .error (.unknownWord 0x00E1) ∧ decode 0x801F = .error (.unknownWord 0x801F) ∧
    decode 0xE09F = .error (.unknownWord 0xE09F) ∧ decode 0xF075 = .error (.unknownWord 0xF075) := by decide

/-- R50: one byte is no instruction; two are, and the rest is left. -/
theorem test_decode_bytes : decodeBytes [0x6A] = .error .shortInput ∧
    decodeBytes [0x6A, 0x05, 0x7A] = .ok (.ldVxByte 10 5, [0x7A]) := by decide

theorem test_decode_table_word : decodeTableWord 16 0x6A05 = some (.ldVxByte 10 5) := by decide

/-! ## Vectors of 95_test_vectors.md -/

/-- S1: all pixels OFF, VF unchanged. -/
theorem test_cls : (after 0x00E0 (lit 63 31 (lit 5 5 (withReg 15 1)))).map (fun t => (t.fb, t.reg 15)) =
    some (Vector.replicate 32 0, 1) := by decide

/-- T7. -/
theorem test_ret : (after 0x00EE (withStack 1 0 0x0ABC State.reset)).map (fun t => (t.pc, t.sp, t.stackEntry 0)) =
    some (0x0ABC, 0, 0x0ABC) := by decide
/-- T8. -/
theorem test_ret_empty : faultOf 0x00EE State.reset = some (.stackUnderflow 0x0200) := by decide

/-- T1. -/
theorem test_jp : (after 0x1ABC State.reset).map (·.pc) = some 0x0ABC := by decide

/-- T5: the 16th level is usable. -/
theorem test_call : (after 0x2300 { State.reset with sp := 15 }).map (fun t => (t.pc, t.sp, t.stackEntry 15)) =
    some (0x0300, 16, 0x0202) := by decide
/-- T6. -/
theorem test_call_full : faultOf 0x2300 { State.reset with sp := 16 } = some (.stackOverflow 0x0200) := by decide

/-- T10, T11. -/
theorem test_se_byte : (after 0x3A05 (withReg 10 5)).map (·.pc) = some 0x0204 ∧
    (after 0x3A05 (withReg 10 6)).map (·.pc) = some 0x0202 := by decide
/-- T12, T13. -/
theorem test_sne_byte : (after 0x4A05 (withReg 10 5)).map (·.pc) = some 0x0202 ∧
    (after 0x4A05 (withReg 10 6)).map (·.pc) = some 0x0204 := by decide
/-- T15, T16. -/
theorem test_se_reg : (after 0x5120 (withRegs 1 9 2 8)).map (·.pc) = some 0x0202 ∧
    (after 0x512F (withRegs 1 9 2 9)).map (·.pc) = some 0x0204 := by decide
/-- T17, T18. -/
theorem test_sne_reg : (after 0x9120 (withRegs 1 9 2 8)).map (·.pc) = some 0x0204 ∧
    (after 0x9120 (withRegs 1 9 2 9)).map (·.pc) = some 0x0202 := by decide

/-- T22: no wrap to 12 bits. -/
theorem test_jp_v0 : (after 0xBFFF (withReg 0 0xFF)).map (·.pc) = some 0x10FE := by decide

/-- A1. -/
theorem test_ld_byte : (after 0x6A05 State.reset).map (fun t => (t.reg 10, t.pc, t.ir)) = some (5, 0x0202, 0x6A05) := by decide
/-- A4, A5. -/
theorem test_add_byte : (after 0x7001 (withReg 0 0xFF)).map (fun t => (t.reg 0, t.reg 15)) = some (0, 0) ∧
    (after 0x7F01 (withReg 15 0xFF)).map (·.reg 15) = some 0 := by decide
/-- A6. -/
theorem test_ld_reg : (after 0x8010 (withReg 1 0x42)).map (·.reg 0) = some 0x42 := by decide
/-- A7. -/
theorem test_or : (after 0x8011 ((withRegs 0 0xF0 1 0x0F).setReg 15 7)).map (fun t => (t.reg 0, t.reg 15)) =
    some (0xFF, 7) := by decide
/-- A8. -/
theorem test_and : (after 0x8012 (withRegs 0 0xF0 1 0x3C)).map (·.reg 0) = some 0x30 := by decide
/-- A9. -/
theorem test_xor : (after 0x8013 (withRegs 0 0xF0 1 0x3C)).map (·.reg 0) = some 0xCC := by decide
/-- A11. -/
theorem test_add_reg : (after 0x8014 (withRegs 0 0xC8 1 0x64)).map (fun t => (t.reg 0, t.reg 15)) =
    some (0x2C, 1) := by decide
/-- A16, A17: VF as Vx and as Vy. -/
theorem test_add_vf : (after 0x8F14 (withRegs 15 0x10 1 0x20)).map (·.reg 15) = some 0 ∧
    (after 0x81F4 (withRegs 1 0xFF 15 2)).map (fun t => (t.reg 1, t.reg 15)) = some (1, 1) := by decide
/-- A19, A20: a borrow, and equal operands. -/
theorem test_sub : (after 0x8015 (withRegs 0 5 1 7)).map (fun t => (t.reg 0, t.reg 15)) = some (0xFE, 0) ∧
    (after 0x8015 (withRegs 0 5 1 5)).map (fun t => (t.reg 0, t.reg 15)) = some (0, 0) := by decide
/-- A21: the flag replaces the result in VF. -/
theorem test_sub_vf : (after 0x8F15 (withRegs 15 9 1 4)).map (·.reg 15) = some 1 := by decide
/-- A28: V[Y] is not read. -/
theorem test_shr : (after 0x8126 (withRegs 1 0x04 2 0xFF)).map (fun t => (t.reg 1, t.reg 2, t.reg 15)) =
    some (0x02, 0xFF, 0) := by decide
/-- A26. -/
theorem test_shr_flag : (after 0x8106 (withReg 1 0x05)).map (fun t => (t.reg 1, t.reg 15)) = some (2, 1) := by decide
/-- A23, A24. -/
theorem test_subn : (after 0x8017 (withRegs 0 5 1 7)).map (fun t => (t.reg 0, t.reg 15)) = some (2, 1) ∧
    (after 0x8017 (withRegs 0 7 1 5)).map (fun t => (t.reg 0, t.reg 15)) = some (0xFE, 0) := by decide
/-- A30. -/
theorem test_shl : (after 0x810E (withReg 1 0x81)).map (fun t => (t.reg 1, t.reg 15)) = some (2, 1) := by decide
/-- A33: the flag replaces the result in VF. -/
theorem test_shl_vf : (after 0x8F0E (withReg 15 0x41)).map (·.reg 15) = some 0 := by decide
/-- M2. -/
theorem test_ld_i : (after 0xAFFF State.reset).map (·.i) = some 0x0FFF := by decide
/-- A35: a mask of 0 gives 0 whatever byte is drawn. -/
theorem test_rnd_mask_zero : (after 0xC100 (withReg 1 9)).map (·.reg 1) = some 0 := by
  have h : ∀ b : Byte, b &&& 0 = 0 := by decide
  exact congrArg some (h (Config.rndByte 0))

/-- S4: glyph 0 at (0, 0). -/
theorem test_drw : (after 0xD015 (State.reset.setI 0x0050)).map (fun t => (t.fb.toList.take 6, t.reg 15)) =
    some ([0xF, 0x9, 0x9, 0x9, 0xF, 0x0], 0) := by decide
/-- S8: clipping at the right edge, no wrap and no collision of clipped pixels. -/
theorem test_drw_clip : (after 0xD011 (lit 0 0 (((withReg 0 62).setI 0x300).store 0x300 [0xFF]))).map
    (fun t => (t.fb.toList.take 2, t.reg 15)) = some ([0xC000000000000001, 0], 0) := by decide

/-- K1, K2. -/
theorem test_skp : (after 0xE29E (press 7 (withReg 2 7))).map (·.pc) = some 0x0204 ∧
    (after 0xE29E (withReg 2 7)).map (·.pc) = some 0x0202 := by decide
/-- K5. -/
theorem test_skp_fault : faultOf 0xE29E (press 0 (withReg 2 0x10)) = some (.keyIndexFault 0x10) := by decide
/-- K3, K4. -/
theorem test_sknp : (after 0xE2A1 (withReg 2 7)).map (·.pc) = some 0x0204 ∧
    (after 0xE2A1 (press 7 (withReg 2 7))).map (·.pc) = some 0x0202 := by decide
/-- K10. -/
theorem test_ld_vx_dt : (after 0xF307 (State.reset.setDt 5)).map (fun t => (t.reg 3, t.dt)) = some (5, 4) := by decide
/-- K17. -/
theorem test_ld_vx_k : (after 0xF10A (press 7 (press 11 State.reset))).map (fun t => (t.reg 1, t.pc)) =
    some (7, 0x0202) := by decide
/-- K16: the timers tick while the instruction waits. -/
theorem test_ld_vx_k_waits : (after 0xF10A ((State.reset.setDt 1).setSt 1)).map (fun t => (t.pc, t.dt, t.st)) =
    some (0x0200, 0, 0) := by decide
/-- K11, K12. -/
theorem test_ld_dt : (after 0xF015 (withReg 0 3)).map (·.dt) = some 2 ∧ (after 0xF015 State.reset).map (·.dt) = some 0 := by
  decide
/-- K14. -/
theorem test_ld_st : (after 0xF018 (withReg 0 1)).map (fun t => (t.st, t.dt)) = some (0, 0) := by decide

/-- M4, M5. -/
theorem test_add_i : (after 0xF21E ((withReg 2 1).setI 0x0FFF)).map (·.i) = some 0x1000 ∧
    (after 0xF21E ((withReg 2 2).setI 0xFFFF)).map (·.i) = some 0x0001 := by decide
/-- M7, M8. -/
theorem test_ld_f : (after 0xFA29 (withReg 10 0x0A)).map (·.i) = some 0x0082 ∧
    (after 0xF029 (withReg 0 0xFF)).map (·.i) = some 0x054B := by decide
/-- M10: the last legal I. -/
theorem test_ld_b : (after 0xF033 ((withReg 0 255).setI 0x0FFD)).map (fun t => t.mem.readBytes 0xFFD 3) =
    some [2, 5, 5] := by decide
/-- M11. -/
theorem test_ld_b_fault : faultOf 0xF033 ((withReg 0 255).setI 0x0FFE) = some (.addressFault 0x1000) := by decide
/-- M14. -/
theorem test_ld_mem_vx : (after 0xF255 (((withRegs 0 0x11 1 0x22).setReg 2 0x33).setI 0x0300)).map
    (fun t => (t.mem.readBytes 0x300 4, t.i)) = some ([0x11, 0x22, 0x33, 0], 0x0300) := by decide
/-- M18. -/
theorem test_ld_mem_vx_fault : faultOf 0xF155 ((withReg 0 0x77).setI 0x0FFF) = some (.addressFault 0x1000) := by decide
/-- M20: reads the font, VF loaded. -/
theorem test_ld_vx_mem : (after 0xFF65 (State.reset.setI 0x0050)).map (fun t => (t.reg 0, t.reg 5, t.reg 14, t.reg 15)) =
    some (0xF0, 0x20, 0xF0, 0xF0) := by decide
/-- M22. -/
theorem test_ld_vx_mem_fault : faultOf 0xF065 (State.reset.setI 0x1000) = some (.addressFault 0x1000) := by decide

/-- X1, K19: an unknown word only advances and ticks. -/
theorem test_unknown : after 0x0001 (State.reset.setDt 2) =
    some { ((State.reset.setDt 2).withFetchWord 16 0x0001) with pc := 0x0202, ir := 0x0001, dt := 1 } := by decide
/-- X11: an odd PC. -/
theorem test_odd_pc : (after 0x6B07 (State.reset.setPc 0x0201)).map (fun t => (t.reg 11, t.pc)) = some (7, 0x0203) := by decide
/-- X9, X10. -/
theorem test_fetch_fault : faultOf 0 (State.reset.setPc 0x0FFF) = some (.addressFault 0x1000) ∧
    faultOf 0 (State.reset.setPc 0x10FE) = some (.addressFault 0x10FE) := by decide

/-! ## Memory and host operations -/

/-- Writing the value an unlisted address reads as removes the entry (log 16). -/
theorem test_write_canonical : Memory.write (Memory.write [] 0x300 7) 0x300 0 = [] ∧
    Memory.write [] 0x050 0xF0 = [] ∧ Memory.write [] 0x050 0 = [(0x050, 0)] := by decide
/-- R171, D18: a block with another font keeps it over a reset; the default font gives the reset state. -/
theorem test_reset_with :
    (applyHostOp (Vector.replicate 80 7) .reset State.reset).mem.readBytes 0x04F 2 = [0, 7] ∧
    (applyHostOp (Vector.replicate 80 7) .reset State.reset).mem.readBytes 0x09F 2 = [7, 0] ∧
    State.resetWith defaultFont = State.reset := by decide
/-- R174: program P1 is loaded at 0x200. -/
theorem test_load_rom : (applyHostOp defaultFont (.loadRom [0x6A, 0x05, 0x7A, 0x03]) State.reset).mem.readBytes 0x200 5 =
    [0x6A, 0x05, 0x7A, 0x03, 0] := by decide

/-! ## Witnesses: a state and operands that meet the hypotheses of each statement -/

theorem witness_DecodeOfEncode : (Instr.drwVxVyN 15 15 15).wellFormed = true ∧ (Instr.cls).wellFormed = true := by decide
theorem witness_WordsOfAnInstruction : (Instr.shrVx 15).wellFormed = true ∧ decode 0x8FF6 = .ok (.shrVx 15) ∧
    decode 0xDFFF = .ok (.drwVxVyN 15 15 15) := by decide
theorem witness_OpcodeRows : ∃ ra, opcodeTable[33]? = some ra ∧ ra.selects 0xFF65 = true := ⟨_, rfl, by decide⟩
theorem witness_StepRuns_next : (State.reset.withFetchWord 16 0x6A05).pc.toNat ≤ 0xFFE ∧
    decode (State.reset.withFetchWord 16 0x6A05).fetchWord = .ok (.ldVxByte 10 5) ∧
    isNext (exec (.ldVxByte 10 5) (State.reset.withFetchWord 16 0x6A05).advance) = true := by decide
/-- The fault clause, at the highest PC. -/
theorem witness_StepRuns_fault : ((State.reset.setPc 0xFFE).withFetchWord 16 0x00EE).pc.toNat ≤ 0xFFE ∧
    decode ((State.reset.setPc 0xFFE).withFetchWord 16 0x00EE).fetchWord = .ok .ret ∧
    faultOf 0x00EE (State.reset.setPc 0xFFE) = some (.stackUnderflow 0xFFE) := by decide
theorem witness_UnknownWord : ((State.reset.setPc 0xFFE).withFetchWord 16 0x00E1).pc.toNat ≤ 0xFFE ∧
    decode ((State.reset.setPc 0xFFE).withFetchWord 16 0x00E1).fetchWord = .error (.unknownWord 0x00E1) := by decide
theorem witness_FetchBeyondMemory : (State.reset.setPc 0xFFF).pc.toNat > 0xFFE ∧ (State.reset.setPc 0x1000).pc.toNat > 0xFFE ∧
    (State.reset.setPc 0xFFFF).pc.toNat > 0xFFE := by decide
theorem witness_EveryStepTicks : isNext (step State.reset) = true ∧ decode State.reset.fetchWord = .ok .cls ∧
    isNext (step ((withReg 0 3).withFetchWord 16 0xF015)) = true ∧
    decode ((withReg 0 3).withFetchWord 16 0xF015).fetchWord = .ok (.ldDtVx 0) ∧
    isNext (step ((withReg 0 3).withFetchWord 16 0xF018)) = true ∧
    decode ((withReg 0 3).withFetchWord 16 0xF018).fetchWord = .ok (.ldStVx 0) := by decide
/-- LD V1,K waits on the first sample and completes on the second, as in program P5. -/
def waitThenPress : List (Vector Bool 16) := [State.reset.keys, (press 7 State.reset).keys]
theorem witness_DelayTimerFalls : isNext (runSamples waitThenPress ((State.reset.setDt 2).withFetchWord 16 0xF10A)) = true ∧
    ∀ k u, k < waitThenPress.length →
      runSamples (waitThenPress.take k) ((State.reset.setDt 2).withFetchWord 16 0xF10A) = .next u →
      ∀ x, decode u.fetchWord ≠ .ok (.ldDtVx x) := by
  refine ⟨by decide, fun k u hk hu x => ?_⟩
  have waits : ∀ k < 2, (match runSamples (waitThenPress.take k) ((State.reset.setDt 2).withFetchWord 16 0xF10A) with
      | .next u => decode u.fetchWord == .ok (.ldVxK 1)
      | .fault _ => false
      | .refused _ => false) = true := by decide
  have hd := waits k hk
  rw [hu] at hd
  have he : decode u.fetchWord = .ok (.ldVxK 1) := by simpa using hd
  rw [he]
  nofun
theorem witness_FaultingStep : faultOf 0x00EE State.reset = some (.stackUnderflow 0x0200) := by decide
theorem witness_StepFaults_none : predictedFault State.reset = none := by decide
theorem witness_InstructionsWriteOnly : isNext (exec (.drwVxVyN 0 1 5) (State.reset.setI 0x050)) = true ∧
    writesRegister (.drwVxVyN 0 1 5) 0 = false ∧ writesFlag (.drwVxVyN 0 1 5) = true := by decide
theorem witness_OnlyThree : (∀ i, decode State.reset.fetchWord = .ok i → readsKeys i = false) ∧ isNext (step State.reset) = true := by
  refine ⟨fun i h => ?_, by decide⟩
  have : decode State.reset.fetchWord = .ok .cls := by decide
  rw [this] at h
  cases h
  rfl
/-- The keypad is kept also by a step that reads it. -/
theorem witness_OnlyThree_reads : isNext (step (State.reset.withFetchWord 16 0xF10A)) = true := by decide
/-- The fault clause: a step that reads no key and faults. -/
theorem witness_OnlyThree_fault : (∀ i, decode (State.reset.withFetchWord 16 0x00EE).fetchWord = .ok i → readsKeys i = false) ∧
    faultOf 0x00EE State.reset = some (.stackUnderflow 0x0200) := by
  refine ⟨fun i h => ?_, by decide⟩
  have : decode (State.reset.withFetchWord 16 0x00EE).fetchWord = .ok .ret := by decide
  rw [this] at h
  cases h
  rfl
theorem witness_OnlyRnd : (∀ x kk, decode State.reset.fetchWord ≠ .ok (.rndVxByte x kk)) ∧ isNext (step State.reset) = true := by
  refine ⟨fun x kk h => ?_, by decide⟩
  have : decode State.reset.fetchWord = .ok .cls := by decide
  rw [this] at h
  cases h
theorem witness_StepKeepsTheInvariant : StateInv State.reset ∧ isNext (step State.reset) = true :=
  ⟨⟨by decide, by decide, by decide⟩, by decide⟩
theorem witness_Call : (State.reset).sp.val < 16 ∧ ({ State.reset with sp := 15 } : State).sp.val < 16 ∧
    ({ State.reset with sp := 16 } : State).sp.val = 16 := by decide
theorem witness_Return : ({ State.reset with sp := 16 } : State).sp.val = (15 : Fin 16).val + 1 ∧
    ({ State.reset with sp := 1 } : State).sp.val = (0 : Fin 16).val + 1 ∧ State.reset.sp.val = 0 := by decide
theorem witness_NestedCalls : State.reset.sp.val + (List.replicate 16 (0x300 : Addr12)).length ≤ 16 := by decide
theorem witness_JumpToSelf : (State.reset.withFetchWord 16 0x1200).pc.toNat ≤ 0xFFE ∧
    decode (State.reset.withFetchWord 16 0x1200).fetchWord = .ok (.jpAddr 0x200) ∧
    (0x200 : Addr12).toNat = (State.reset.withFetchWord 16 0x1200).pc.toNat := by decide
theorem witness_StoreDecimalDigits : (State.reset.setI 0xFFD).mem.wf = true ∧ (State.reset.setI 0xFFD).base + 2 ≤ 0xFFF ∧
    (State.reset.setI 0xFFE).base + 2 > 0xFFF ∧ (State.reset.setI 0xFFFF).base + 2 > 0xFFF := by decide
theorem witness_StoreRegisters : (State.reset.setI 0xFF0).mem.wf = true ∧ (State.reset.setI 0xFF0).base + (15 : Reg).val ≤ 0xFFF ∧
    (State.reset.setI 0xFFF).base + (0 : Reg).val ≤ 0xFFF ∧ (State.reset.setI 0xFF1).base + (15 : Reg).val > 0xFFF := by decide
theorem witness_LoadAfterStore : State.reset.mem.wf = true ∧ isNext (exec (.ldMemVx 15) (State.reset.setI 0xFF0)) = true := by decide
theorem witness_StoresSeen : isNext (step ((State.reset.setI 0x202).withFetchWord 16 0xF155)) = true ∧
    ((State.reset.setI 0x202).withFetchWord 16 0xF155).mem.wf = true ∧
    decode ((State.reset.setI 0x202).withFetchWord 16 0xF155).fetchWord = .ok (.ldMemVx 1) ∧ (1 : Reg) ≤ 1 ∧
    (1 : Reg).val = (0 : Reg).val + 1 ∧ ((State.reset.setI 0x202).withFetchWord 16 0xF155).base + (0 : Reg).val =
      ((State.reset.setI 0x202).withFetchWord 16 0xF155).pc.toNat + 2 := by decide
/-- Both sides of the range check, at its ends, and N = 0 at any I. -/
theorem witness_Draw_range : (State.reset.setI 0xFF1).base + 15 - 1 ≤ 0xFFF ∧ (State.reset.setI 0xFF2).base + 15 - 1 > 0xFFF ∧
    isNext (exec (.drwVxVyN 0 1 0) (State.reset.setI 0xFFFF)) = true := by decide
/-- A covered pixel at the corner (0, 0), and one that is not covered. -/
theorem witness_Draw_covered : spriteCovers ((State.reset.setI 0x050).mem.readBytes 0x050 5) 0 0 0 0 ∧
    ¬ spriteCovers ((State.reset.setI 0x050).mem.readBytes 0x050 5) 0 0 0 4 := by
  refine ⟨⟨by decide, by decide, by decide, 0xF0, by decide, by decide⟩, ?_⟩
  rintro ⟨_, _, _, b, h, h'⟩
  have e : ((State.reset.setI 0x050).mem.readBytes 0x050 5)[(0 : Fin 32).val - 0]? = some 0xF0 := by decide
  rw [e] at h
  cases h
  exact absurd h' (by decide)
/-- The collision clause at the corner (63, 31) of the screen, and the clause without a collision. -/
theorem witness_Draw_collision :
    (∃ Y X, spriteCovers ((lit 63 31 (State.reset.setI 0x050)).mem.readBytes 0x050 1) 63 31 Y X ∧
      (lit 63 31 (State.reset.setI 0x050)).pixel Y X = true) ∧ ∀ Y X, State.reset.pixel Y X = false := by
  refine ⟨⟨31, 63, ⟨by decide, by decide, by decide, 0xF0, by decide, by decide⟩, by decide⟩, fun Y X => ?_⟩
  simp [State.reset, State.pixel, Framebuffer.pixelAt]
theorem witness_DrawTwice : (after 0xD015 (State.reset.setI 0x050)).map (fun t => ((t.reg 0).toNat % 64, (t.reg 1).toNat % 32)) =
    some ((State.reset.reg 0).toNat % 64, (State.reset.reg 1).toNat % 32) := by decide
theorem witness_KeySkips : ((withReg 2 15).reg 2).toNat = (15 : Fin 16).val ∧ ((withReg 2 0).reg 2).toNat = (0 : Fin 16).val ∧
    ((withReg 2 16).reg 2).toNat > 15 ∧ ((withReg 2 255).reg 2).toNat > 15 := by decide
theorem witness_KeyWait : (press 15 State.reset).key 15 = true ∧ (∀ j : Fin 16, j < 15 → (press 15 State.reset).key j = false) ∧
    (press 0 State.reset).key 0 = true ∧ (∀ j : Fin 16, j < 0 → (press 0 State.reset).key j = false) ∧
    ∀ k, State.reset.key k = false := by decide
theorem witness_KeyWaitRuns : (State.reset.withFetchWord 16 0xF10A).pc.toNat ≤ 0xFFE ∧
    decode (State.reset.withFetchWord 16 0xF10A).fetchWord = .ok (.ldVxK 1) ∧
    ∀ keys ∈ List.replicate 2 State.reset.keys, ∀ k : Fin 16, keys[k.val] = false := by
  refine ⟨by decide, by decide, fun keys h => ?_⟩
  rw [List.eq_of_mem_replicate h]
  decide
theorem witness_TimerSteps : decode (State.reset.withFetchWord 16 0xF307).fetchWord = .ok (.ldVxDt 3) ∧
    decode (State.reset.withFetchWord 16 0xF315).fetchWord = .ok (.ldDtVx 3) ∧
    decode (State.reset.withFetchWord 16 0xF318).fetchWord = .ok (.ldStVx 3) ∧ State.reset.pc.toNat ≤ 0xFFE := by decide
theorem witness_LoadRom : State.reset.mem.wf = true ∧ (List.replicate 3584 (1 : Byte)).length ≤ 3584 ∧
    (List.replicate 3585 (1 : Byte)).length > 3584 :=
  ⟨by decide, Nat.le_of_eq List.length_replicate,
    Nat.lt_of_lt_of_eq (Nat.lt_succ_self 3584) List.length_replicate.symm⟩

end Sys2Proof.Tests
end

section
/-! PROOFS. The memory statements (20_memory.md). -/

namespace Sys2Proof.Machine

/-- Settles O7: a fetch joins the two bytes by `wordOfBytes`, whose value is high byte times 256 plus low byte. -/
theorem fetchIsBigEndian : Obligations.FetchIsBigEndian := by
  intro s
  rw [State.fetchWord]
  exact wordOfBytes_toNat (s.mem.read s.pc.toNat) (s.mem.read (s.pc.toNat + 1))

end Sys2Proof.Machine
end

section
/-! PROOFS. The statements about an unknown word (40_step_pipeline.md). -/

namespace Sys2Proof.Machine

/-- An unknown word executes nothing (R58, R76). -/
theorem executeWord_of_decode_error {w : Word} {e : Reject} (h : decode w = .error e) (s : State) :
    executeWord w s = .next s := by
  simp only [executeWord, h]

/-- With a fetch in memory, a step on an unknown word is the advance and the tick alone (R70, R76). -/
theorem step_of_decode_error {s : State} {e : Reject} (hpc : s.pc.toNat ≤ 0xFFE)
    (h : decode s.fetchWord = .error e) : step s = .next (tick s.advance) := by
  rw [step, checkRange_ok (.inr (by omega)), executeWord_of_decode_error h, finish]

/-- The advance does not wrap for a fetch in memory (R17, R72). -/
theorem State.advance_pc_toNat {s : State} (hpc : s.pc.toNat ≤ 0xFFE) :
    s.advance.pc.toNat = s.pc.toNat + 2 := by
  rw [State.advance_pc]
  bv_omega

/-- The phases around an instruction write IR, PC and the timers only (R72, R75). -/
theorem sameExcept_tick_advance (s : State) : SameExcept [.ir, .pc, .dt, .st] s (tick s.advance) := by
  intro p hp
  cases p with
  | ir | pc | dt | st => exact absurd (by decide) hp
  | i | sp | draws => rfl
  | v | stack | mem | keys => exact fun _ => rfl
  | fb => exact fun _ _ => rfl

/-- Settles O9: on an unknown word the step is the advance and the tick alone, and each part reads off from there. -/
theorem unknownWordOnlyAdvancesAndTicks : Obligations.UnknownWordOnlyAdvancesAndTicks := by
  intro s e hpc hdec
  refine ⟨tick s.advance, step_of_decode_error hpc hdec, ?ir, ?pc, ?dt, ?st, sameExcept_tick_advance s⟩
  case ir => rw [tick_ir, State.advance_ir]
  case pc => rw [tick_pc, State.advance_pc_toNat hpc]
  case dt => rw [tick_dt, countDown_toNat, State.advance_dt]
  case st => rw [tick_st, countDown_toNat, State.advance_st]

end Sys2Proof.Machine
end

section
/-! PROOFS. The jump and the four skips on a comparison (41_control_flow.md): each is one write of PC. -/

namespace Sys2Proof.Machine

/-- Writing PC leaves every other part as it was. -/
theorem sameExcept_setPc (s : State) (a : Word) : SameExcept [.pc] s (s.setPc a) := by
  intro p hp
  cases p with
  | pc => exact absurd (by decide) hp
  | i | sp | dt | st | ir | draws => rfl
  | v | stack | mem | keys => exact fun _ => rfl
  | fb => exact fun _ _ => rfl

/-- A result that is one write of PC only moves PC. -/
theorem onlyMovesPc_setPc (s : State) (a : Word) : OnlyMovesPc (.next (s.setPc a)) s a.toNat :=
  ⟨s.setPc a, rfl, congrArg BitVec.toNat (State.setPc_pc s a), sameExcept_setPc s a⟩

/-- A skip that decides `P` moves PC by 2 if `P` holds and else not at all, and moves nothing but PC (R93 to R96,
R140, R141). -/
theorem onlyMovesPc_skipIf {P : Prop} [Decidable P] {taken : Bool} (h : taken = true ↔ P) (s : State) :
    OnlyMovesPc (.next (skipIf taken s)) s (if P then (s.pc + 2).toNat else s.pc.toNat) := by
  rw [skipIf_eq_setPc, ← apply_ite BitVec.toNat, if_congr h rfl rfl]
  exact onlyMovesPc_setPc s _

/-- An address keeps its value as a target of PC. -/
@[simp] theorem zextAddr_toNat (nnn : Addr12) : (zextAddr nnn).toNat = nnn.toNat := by
  rw [zextAddr]
  exact BitVec.toNat_setWidth_of_le (by decide)

theorem exec_jpAddr (nnn : Addr12) (s : State) : exec (.jpAddr nnn) s = .next (s.setPc (zextAddr nnn)) := rfl

theorem exec_seVxByte (x : Reg) (kk : Byte) (s : State) :
    exec (.seVxByte x kk) s = .next (skipIf (s.reg x == kk) s) := rfl

theorem exec_sneVxByte (x : Reg) (kk : Byte) (s : State) :
    exec (.sneVxByte x kk) s = .next (skipIf (s.reg x != kk) s) := rfl

theorem exec_seVxVy (x y : Reg) (s : State) :
    exec (.seVxVy x y) s = .next (skipIf (s.reg x == s.reg y) s) := rfl

theorem exec_sneVxVy (x y : Reg) (s : State) :
    exec (.sneVxVy x y) s = .next (skipIf (s.reg x != s.reg y) s) := rfl

/-- Settles O24: the jump is one write of PC, with an address whose value is NNN. -/
theorem jumpGoesToTheAddress : Obligations.JumpGoesToTheAddress := by
  intro s nnn
  rw [exec_jpAddr, ← zextAddr_toNat]
  exact onlyMovesPc_setPc s (zextAddr nnn)

/-- Settles O26: each of the four is a skip on a Boolean that decides its comparison. -/
theorem skipsAddTwoWhenTheComparisonHolds : Obligations.SkipsAddTwoWhenTheComparisonHolds := by
  intro s x y kk
  rw [exec_seVxByte, exec_sneVxByte, exec_seVxVy, exec_sneVxVy]
  exact ⟨onlyMovesPc_skipIf beq_iff_eq s, onlyMovesPc_skipIf bne_iff_ne s,
    onlyMovesPc_skipIf beq_iff_eq s, onlyMovesPc_skipIf bne_iff_ne s⟩

end Sys2Proof.Machine
end

section
/-! PROOFS. The loads and the ALU without a flag (42_load_alu.md): each is one write of V[X]. -/

namespace Sys2Proof.Machine

/-- Writing a register leaves every part but the registers as it was. -/
theorem sameExcept_setReg (s : State) (x : Reg) (b : Byte) : SameExcept [.v] s (s.setReg x b) := by
  intro p hp
  cases p with
  | v => exact absurd (by decide) hp
  | i | pc | sp | dt | st | ir | draws => rfl
  | stack | mem | keys => exact fun _ => rfl
  | fb => exact fun _ _ => rfl

/-- A result that is one write of V[x] writes that register and nothing else. -/
theorem writesRegister_setReg (s : State) (x : Reg) (b : Byte) :
    WritesRegister (.next (s.setReg x b)) s x b :=
  ⟨s.setReg x b, rfl, fun k => State.reg_setReg s x k b, sameExcept_setReg s x b⟩

theorem exec_ldVxByte (x : Reg) (kk : Byte) (s : State) :
    exec (.ldVxByte x kk) s = .next (s.setReg x kk) := rfl

theorem exec_ldVxVy (x y : Reg) (s : State) : exec (.ldVxVy x y) s = .next (s.setReg x (s.reg y)) := rfl

theorem exec_orVxVy (x y : Reg) (s : State) :
    exec (.orVxVy x y) s = .next (s.setReg x (s.reg x ||| s.reg y)) := rfl

theorem exec_andVxVy (x y : Reg) (s : State) :
    exec (.andVxVy x y) s = .next (s.setReg x (s.reg x &&& s.reg y)) := rfl

theorem exec_xorVxVy (x y : Reg) (s : State) :
    exec (.xorVxVy x y) s = .next (s.setReg x (s.reg x ^^^ s.reg y)) := rfl

theorem exec_addVxByte (x : Reg) (kk : Byte) (s : State) :
    exec (.addVxByte x kk) s = .next (s.setReg x (s.reg x + kk)) := rfl

/-- Settles O31: each of the five is one write of V[X], with the byte the statement names. -/
theorem loadsAndLogicWriteVxOnly : Obligations.LoadsAndLogicWriteVxOnly := by
  intro s x y kk
  rw [exec_ldVxByte, exec_ldVxVy, exec_orVxVy, exec_andVxVy, exec_xorVxVy]
  exact ⟨writesRegister_setReg s x _, writesRegister_setReg s x _, writesRegister_setReg s x _,
    writesRegister_setReg s x _, writesRegister_setReg s x _⟩

/-- Settles O32: the byte written is the 8-bit sum, whose value is the sum of the values modulo 256. -/
theorem addImmediateWrapsWithoutFlag : Obligations.AddImmediateWrapsWithoutFlag := by
  intro s x kk
  rw [exec_addVxByte]
  exact ⟨s.reg x + kk, BitVec.toNat_add (s.reg x) kk, writesRegister_setReg s x (s.reg x + kk)⟩

end Sys2Proof.Machine
end

section
/-! PROOFS. The load of I (43_index_memory.md): it is one write of I. -/

namespace Sys2Proof.Machine

/-- Writing I leaves every other part as it was. -/
theorem sameExcept_setI (s : State) (a : Word) : SameExcept [.i] s (s.setI a) := by
  intro p hp
  cases p with
  | i => exact absurd (by decide) hp
  | pc | sp | dt | st | ir | draws => rfl
  | v | stack | mem | keys => exact fun _ => rfl
  | fb => exact fun _ _ => rfl

theorem exec_ldIAddr (nnn : Addr12) (s : State) : exec (.ldIAddr nnn) s = .next (s.setI (zextAddr nnn)) := rfl

/-- Settles O36: the load is one write of I, with an address whose value is NNN. -/
theorem loadIndexTakesTheAddress : Obligations.LoadIndexTakesTheAddress := by
  intro s nnn
  have value : (s.setI (zextAddr nnn)).i.toNat = nnn.toNat := by rw [State.setI_i, zextAddr_toNat]
  exact ⟨s.setI (zextAddr nnn), exec_ldIAddr nnn s, value, sameExcept_setI s (zextAddr nnn)⟩

end Sys2Proof.Machine
end

section
/-! PROOFS. The clear of the screen (44_display.md): it is one write of the framebuffer. -/

namespace Sys2Proof.Machine

/-- Writing the framebuffer leaves every other part as it was. -/
theorem sameExcept_setFb (s : State) (fb : Framebuffer) : SameExcept [.fb] s (s.setFb fb) := by
  intro p hp
  cases p with
  | fb => exact absurd (by decide) hp
  | i | pc | sp | dt | st | ir | draws => rfl
  | v | stack | mem | keys => exact fun _ => rfl

theorem exec_cls (s : State) : exec .cls s = .next (s.setFb (Vector.replicate 32 0#64)) := rfl

/-- Settles O44: CLS is one write of the framebuffer, and the framebuffer it writes has every pixel OFF. -/
theorem clearScreenTurnsEveryPixelOff : Obligations.ClearScreenTurnsEveryPixelOff := by
  intro s
  have off : ∀ y x, (s.setFb (Vector.replicate 32 0#64)).pixel y x = false := by
    intro y x
    rw [State.pixel_setFb, Framebuffer.pixelAt_replicate_zero]
  exact ⟨s.setFb (Vector.replicate 32 0#64), exec_cls s, off, sameExcept_setFb s _⟩

end Sys2Proof.Machine
end

section
/-! PROOFS. The state after reset (70_reset_and_hazards.md): the reads of it, R170's table row by row. -/

namespace Sys2Proof.Machine

@[simp] theorem State.reg_reset (r : Reg) : State.reset.reg r = 0 := Vector.getElem_replicate r.isLt

@[simp] theorem State.stackEntry_reset (k : Fin 16) : State.reset.stackEntry k = 0 :=
  Vector.getElem_replicate k.isLt

@[simp] theorem State.pixel_reset (y : Fin 32) (x : Fin 64) : State.reset.pixel y x = false :=
  Framebuffer.pixelAt_replicate_zero y x

/-- After reset memory lists nothing, so every address reads as the reset contents. -/
theorem State.read_reset (a : Nat) : State.reset.mem.read a = Memory.unlisted a := rfl

/-- From FONT_BASE on the reset contents are the font's bytes in order. -/
theorem Memory.unlisted_fontBase_add (k : Nat) : Memory.unlisted (Config.fontBase + k) = font.getD k 0 := by
  rw [Memory.unlisted, if_pos (Nat.le_add_right Config.fontBase k), Nat.add_sub_cancel_left]

/-- Settles O53: the registers that are one field are as `State.reset` writes them; the others and memory are read
by the lemmas above, memory outside the font copy by `Memory.unlisted_outside_font`. -/
theorem resetZeroesAllButPcAndFont : Obligations.ResetZeroesAllButPcAndFont := by
  have zeroOutsideFont : ∀ a, a < 0x050 ∨ 0x09F < a → State.reset.mem.read a = 0 := fun a outside =>
    (State.read_reset a).trans (Memory.unlisted_outside_font outside)
  have fontCopy : ∀ k, k < 80 → State.reset.mem.read (0x050 + k) = font.getD k 0 := fun k _ =>
    (State.read_reset (0x050 + k)).trans (Memory.unlisted_fontBase_add k)
  exact ⟨State.reg_reset, rfl, rfl, State.stackEntry_reset, rfl, rfl, rfl, rfl, zeroOutsideFont, fontCopy,
    State.pixel_reset⟩

end Sys2Proof.Machine
end

section
/-! PROOFS. The decoder (30_encoding.md): an instruction as fields of its word, read by the decoder, written by the
encoder and kept by the mask of the used bits. -/

namespace Sys2Proof

/-- The fields that a word of the instruction holds: its family, its key and its operands (R54, R55). -/
def Instr.fields : Instr → Word → Prop
  | .cls, w => famOf w = 0x0 ∧ nOf w = 0x0
  | .ret, w => famOf w = 0x0 ∧ nOf w = 0xE
  | .jpAddr nnn, w => famOf w = 0x1 ∧ nnnOf w = nnn
  | .callAddr nnn, w => famOf w = 0x2 ∧ nnnOf w = nnn
  | .seVxByte x kk, w => famOf w = 0x3 ∧ xOf w = x ∧ kkOf w = kk
  | .sneVxByte x kk, w => famOf w = 0x4 ∧ xOf w = x ∧ kkOf w = kk
  | .seVxVy x y, w => famOf w = 0x5 ∧ xOf w = x ∧ yOf w = y
  | .ldVxByte x kk, w => famOf w = 0x6 ∧ xOf w = x ∧ kkOf w = kk
  | .addVxByte x kk, w => famOf w = 0x7 ∧ xOf w = x ∧ kkOf w = kk
  | .ldVxVy x y, w => famOf w = 0x8 ∧ xOf w = x ∧ yOf w = y ∧ nOf w = 0x0
  | .orVxVy x y, w => famOf w = 0x8 ∧ xOf w = x ∧ yOf w = y ∧ nOf w = 0x1
  | .andVxVy x y, w => famOf w = 0x8 ∧ xOf w = x ∧ yOf w = y ∧ nOf w = 0x2
  | .xorVxVy x y, w => famOf w = 0x8 ∧ xOf w = x ∧ yOf w = y ∧ nOf w = 0x3
  | .addVxVy x y, w => famOf w = 0x8 ∧ xOf w = x ∧ yOf w = y ∧ nOf w = 0x4
  | .subVxVy x y, w => famOf w = 0x8 ∧ xOf w = x ∧ yOf w = y ∧ nOf w = 0x5
  | .shrVx x, w => famOf w = 0x8 ∧ xOf w = x ∧ nOf w = 0x6
  | .subnVxVy x y, w => famOf w = 0x8 ∧ xOf w = x ∧ yOf w = y ∧ nOf w = 0x7
  | .shlVx x, w => famOf w = 0x8 ∧ xOf w = x ∧ nOf w = 0xE
  | .sneVxVy x y, w => famOf w = 0x9 ∧ xOf w = x ∧ yOf w = y
  | .ldIAddr nnn, w => famOf w = 0xA ∧ nnnOf w = nnn
  | .jpV0Addr nnn, w => famOf w = 0xB ∧ nnnOf w = nnn
  | .rndVxByte x kk, w => famOf w = 0xC ∧ xOf w = x ∧ kkOf w = kk
  | .drwVxVyN x y n, w => famOf w = 0xD ∧ xOf w = x ∧ yOf w = y ∧ (nOf w).toNat = n
  | .skpVx x, w => famOf w = 0xE ∧ xOf w = x ∧ nOf w = 0xE
  | .sknpVx x, w => famOf w = 0xE ∧ xOf w = x ∧ nOf w = 0x1
  | .ldVxDt x, w => famOf w = 0xF ∧ xOf w = x ∧ kkOf w = 0x07
  | .ldVxK x, w => famOf w = 0xF ∧ xOf w = x ∧ kkOf w = 0x0A
  | .ldDtVx x, w => famOf w = 0xF ∧ xOf w = x ∧ kkOf w = 0x15
  | .ldStVx x, w => famOf w = 0xF ∧ xOf w = x ∧ kkOf w = 0x18
  | .addIVx x, w => famOf w = 0xF ∧ xOf w = x ∧ kkOf w = 0x1E
  | .ldFVx x, w => famOf w = 0xF ∧ xOf w = x ∧ kkOf w = 0x29
  | .ldBVx x, w => famOf w = 0xF ∧ xOf w = x ∧ kkOf w = 0x33
  | .ldMemVx x, w => famOf w = 0xF ∧ xOf w = x ∧ kkOf w = 0x55
  | .ldVxMem x, w => famOf w = 0xF ∧ xOf w = x ∧ kkOf w = 0x65

/-- A word that holds the fields of an instruction decodes to it. -/
theorem decode_of_fields {i : Instr} {w : Word} (h : i.fields w) : decode w = .ok i := by
  cases i <;> simp only [Instr.fields] at h <;>
    simp [decode, decodeFamily0, decodeFamily8, decodeFamilyE, decodeFamilyF, h]

/-- The nibble that fifteen others leave. -/
theorem nibble_eq_F {a : BitVec 4} (h : a ∉ ([0, 1, 2, 3, 4, 5, 6, 7, 8, 9, 10, 11, 12, 13, 14] :
    List (BitVec 4))) : a = 0xF#4 := by
  revert a; decide

/-- The decoder inspects the fields of what it answers. -/
theorem fields_of_decode {i : Instr} {w : Word} (h : decode w = .ok i) : i.fields w := by
  unfold decode at h
  split at h
  case h_1 hf =>
    unfold decodeFamily0 at h
    split at h <;> cases h <;> exact ⟨hf, ‹_›⟩
  case h_9 hf =>
    unfold decodeFamily8 at h
    split at h <;> cases h <;> simp [Instr.fields, *]
  case h_15 hf =>
    unfold decodeFamilyE at h
    split at h <;> cases h <;> simp [Instr.fields, *]
  case h_16 =>
    have hf : famOf w = 0xF#4 := nibble_eq_F (by simp_all)
    unfold decodeFamilyF at h
    split at h <;> cases h <;> simp [Instr.fields, *]
  all_goals cases h; simp [Instr.fields, *]

theorem decode_eq_ok_iff {i : Instr} {w : Word} : decode w = .ok i ↔ i.fields w :=
  ⟨fields_of_decode, decode_of_fields⟩

/-- Two words agree under a mask exactly when their nibbles agree under the mask's. -/
theorem and_eq_and_iff_nibbles (w w' m : Word) : w &&& m = w' &&& m ↔
    famOf w &&& famOf m = famOf w' &&& famOf m ∧
    (BitVec.ofFin (xOf w) : BitVec 4) &&& BitVec.ofFin (xOf m) = BitVec.ofFin (xOf w') &&& BitVec.ofFin (xOf m) ∧
    (BitVec.ofFin (yOf w) : BitVec 4) &&& BitVec.ofFin (yOf m) = BitVec.ofFin (yOf w') &&& BitVec.ofFin (yOf m) ∧
    nOf w &&& nOf m = nOf w' &&& nOf m := by
  rw [← famOf_and, ← famOf_and, ← xOf_and, ← xOf_and, ← yOf_and, ← yOf_and, ← nOf_and, ← nOf_and]
  constructor
  · intro h
    rw [h]
    exact ⟨rfl, rfl, rfl, rfl⟩
  · rintro ⟨hf, hx, hy, hn⟩
    exact word_ext hf (congrArg BitVec.toFin hx) (congrArg BitVec.toFin hy) hn

/-- Under 0xFFFF words agree when they are the same. -/
theorem and_FFFF_eq_and_iff (w w' : Word) : w &&& 0xFFFF#16 = w' &&& 0xFFFF#16 ↔ w = w' := by
  rw [show (0xFFFF#16 : Word) = BitVec.allOnes 16 from rfl, BitVec.and_allOnes, BitVec.and_allOnes]

/-- Under 0xF00F the words of one family and N agree. -/
theorem and_F00F_eq_and_iff (w w' : Word) :
    w &&& 0xF00F#16 = w' &&& 0xF00F#16 ↔ famOf w = famOf w' ∧ nOf w = nOf w' := by
  simpa [famOf, xOf, yOf, nOf, and_ones4] using and_eq_and_iff_nibbles w w' 0xF00F#16

/-- Under 0xFF0F the words of one family, X and N agree. -/
theorem and_FF0F_eq_and_iff (w w' : Word) :
    w &&& 0xFF0F#16 = w' &&& 0xFF0F#16 ↔ famOf w = famOf w' ∧ xOf w = xOf w' ∧ nOf w = nOf w' := by
  simpa [famOf, xOf, yOf, nOf, and_ones4] using and_eq_and_iff_nibbles w w' 0xFF0F#16

/-- Under 0xFFF0 the words of one family, X and Y agree. -/
theorem and_FFF0_eq_and_iff (w w' : Word) :
    w &&& 0xFFF0#16 = w' &&& 0xFFF0#16 ↔ famOf w = famOf w' ∧ xOf w = xOf w' ∧ yOf w = yOf w' := by
  simpa [famOf, xOf, yOf, nOf, and_ones4] using and_eq_and_iff_nibbles w w' 0xFFF0#16

theorem eq_wordA_iff (w : Word) (fam : BitVec 4) (nnn : Addr12) :
    w = wordA fam nnn ↔ famOf w = fam ∧ nnnOf w = nnn := by
  constructor
  · rintro rfl
    exact ⟨famOf_wordA fam nnn, nnnOf_wordA fam nnn⟩
  · rintro ⟨rfl, rfl⟩
    refine BitVec.eq_of_toNat_eq ?_
    rw [wordA_toNat, famOf_toNat, nnnOf_toNat]
    omega

theorem eq_wordXK_iff (w : Word) (fam : BitVec 4) (x : Reg) (kk : Byte) :
    w = wordXK fam x kk ↔ famOf w = fam ∧ xOf w = x ∧ kkOf w = kk := by
  constructor
  · rintro rfl
    exact ⟨famOf_wordXK fam x kk, xOf_wordXK fam x kk, kkOf_wordXK fam x kk⟩
  · rintro ⟨rfl, rfl, rfl⟩
    refine BitVec.eq_of_toNat_eq ?_
    rw [wordXK_toNat, famOf_toNat, xOf_val, kkOf_toNat]
    omega

theorem eq_wordXYN_iff (w : Word) (fam : BitVec 4) (x y : Reg) (n : BitVec 4) :
    w = wordXYN fam x y n ↔ famOf w = fam ∧ xOf w = x ∧ yOf w = y ∧ nOf w = n := by
  constructor
  · rintro rfl
    exact ⟨famOf_wordXYN fam x y n, xOf_wordXYN fam x y n, yOf_wordXYN fam x y n, nOf_wordXYN fam x y n⟩
  · rintro ⟨rfl, rfl, rfl, rfl⟩
    exact word_eq_fields w

/-- The row count of a well-formed DRW is the field N as a number (R53). -/
theorem eq_ofNat_iff_toNat_eq {n : Nat} (hn : n ≤ 15) (a : BitVec 4) : a = BitVec.ofNat 4 n ↔ a.toNat = n := by
  rw [← BitVec.toNat_inj, BitVec.toNat_ofNat, Nat.mod_eq_of_lt (by omega)]

/-- A word agrees with the encoding of an instruction on its used bits exactly when it holds its fields. -/
theorem and_usedBits_eq_iff_fields {i : Instr} (hi : i.wellFormed = true) (w : Word) :
    w &&& Machine.usedBits i = encode i &&& Machine.usedBits i ↔ i.fields w := by
  cases i with
  | cls | ret => exact and_F00F_eq_and_iff w _
  | jpAddr | callAddr | ldIAddr | jpV0Addr => exact (and_FFFF_eq_and_iff w _).trans (eq_wordA_iff w _ _)
  | seVxByte | sneVxByte | ldVxByte | addVxByte | rndVxByte | ldVxDt | ldVxK | ldDtVx | ldStVx | addIVx | ldFVx | ldBVx
  | ldMemVx | ldVxMem => exact (and_FFFF_eq_and_iff w _).trans (eq_wordXK_iff w _ _ _)
  | ldVxVy | orVxVy | andVxVy | xorVxVy | addVxVy | subVxVy | subnVxVy =>
    exact (and_FFFF_eq_and_iff w _).trans (eq_wordXYN_iff w _ _ _ _)
  | drwVxVyN x y n =>
    rw [Instr.fields, ← eq_ofNat_iff_toNat_eq (of_decide_eq_true hi)]
    exact (and_FFFF_eq_and_iff w _).trans (eq_wordXYN_iff w _ _ _ _)
  | seVxVy | sneVxVy =>
    refine (and_FFF0_eq_and_iff w _).trans ?_
    rw [encode, famOf_wordXYN, xOf_wordXYN, yOf_wordXYN]
    rfl
  | shrVx | shlVx =>
    refine (and_FF0F_eq_and_iff w _).trans ?_
    rw [encode, famOf_wordXYN, xOf_wordXYN, nOf_wordXYN]
    rfl
  | skpVx | sknpVx =>
    refine (and_FF0F_eq_and_iff w _).trans ?_
    rw [encode, famOf_wordXK, xOf_wordXK, nOf_eq_kkOf (wordXK _ _ _), kkOf_wordXK]
    rfl

/-- A word of a family that DRW's N is read from gives at most 15 rows; no other operand can be too wide. -/
theorem wellFormed_of_fields {i : Instr} {w : Word} (h : i.fields w) : i.wellFormed = true := by
  cases i with
  | drwVxVyN x y n =>
    obtain ⟨-, -, -, hn⟩ := h
    exact decide_eq_true (by have := (nOf w).isLt; omega)
  | _ => rfl

/-- Settles O3: decoding to an instruction and agreeing with its encoding on the used bits both say that the word
holds its fields. -/
theorem wordsOfAnInstructionDifferOnlyInUnusedBits : Obligations.WordsOfAnInstructionDifferOnlyInUnusedBits :=
  ⟨fun _ w hi => decode_eq_ok_iff.trans (and_usedBits_eq_iff_fields hi w).symm,
    fun _ _ h => wellFormed_of_fields (fields_of_decode h)⟩

/-- Settles O2: the encoding agrees with itself on the used bits, and the two bytes join to the word again. -/
theorem decodeOfEncodeIsTheInstruction : Obligations.DecodeOfEncodeIsTheInstruction := by
  intro i hi
  have hdec : decode (encode i) = .ok i := decode_of_fields ((and_usedBits_eq_iff_fields hi (encode i)).1 rfl)
  refine ⟨hdec, fun rest => ?_⟩
  simp only [bytesOfWord, List.cons_append, List.nil_append, decodeBytes, wordOfBytes_bytes, hdec]

/-- Settles O1: each of the ten is a fixed word, which the decoder reads. -/
theorem wordsWrittenOutDecode : Obligations.WordsWrittenOutDecode := by
  unfold Obligations.WordsWrittenOutDecode
  decide

/-- A word that two rows select has the bits of both patterns, so the patterns agree where both masks look. -/
theorem patterns_agree_of_selects {ra rb : OpcodeRow} {w : Word} (ha : ra.selects w = true) (hb : rb.selects w = true) :
    ra.pattern &&& rb.mask = rb.pattern &&& ra.mask := by
  rw [OpcodeRow.selects, beq_iff_eq] at ha hb
  rw [← ha, ← hb, BitVec.and_assoc, BitVec.and_assoc, BitVec.and_comm ra.mask]

/-- The patterns of two rows of the table differ where both masks look. -/
theorem opcodeTable_pairwise :
    opcodeTable.Pairwise fun ra rb => ra.pattern &&& rb.mask ≠ rb.pattern &&& ra.mask := by
  decide

/-- Settles O5: of two rows at different places the patterns differ where both masks look. -/
theorem opcodeRowsDoNotOverlap : Obligations.OpcodeRowsDoNotOverlap := by
  refine ⟨rfl, fun w a b ra rb hra hrb ha hb => ?_⟩
  have apart := List.pairwise_iff_getElem.1 opcodeTable_pairwise
  obtain ⟨hla, rfl⟩ := List.getElem?_eq_some_iff.1 hra
  obtain ⟨hlb, rfl⟩ := List.getElem?_eq_some_iff.1 hrb
  rcases Nat.lt_trichotomy a b with hlt | heq | hgt
  · exact absurd (patterns_agree_of_selects ha hb) (apart a b hla hlb hlt)
  · exact heq
  · exact absurd (patterns_agree_of_selects hb ha) (apart b a hlb hla hgt)

theorem selects_F000_iff (b : Word → Instr) (w : Word) {p : Word} (hx : xOf p = 0) (hy : yOf p = 0) (hn : nOf p = 0) :
    OpcodeRow.selects ⟨p, 0xF000, b⟩ w = true ↔ famOf w = famOf p :=
  beq_iff_eq.trans (and_F000_eq_iff w p hx hy hn)

theorem selects_F00F_iff (b : Word → Instr) (w : Word) {p : Word} (hx : xOf p = 0) (hy : yOf p = 0) :
    OpcodeRow.selects ⟨p, 0xF00F, b⟩ w = true ↔ famOf w = famOf p ∧ nOf w = nOf p :=
  beq_iff_eq.trans (and_F00F_eq_iff w p hx hy)

theorem selects_F0FF_iff (b : Word → Instr) (w : Word) {p : Word} (hx : xOf p = 0) :
    OpcodeRow.selects ⟨p, 0xF0FF, b⟩ w = true ↔ famOf w = famOf p ∧ kkOf w = kkOf p :=
  beq_iff_eq.trans (and_F0FF_eq_iff w p hx)

/-- The row selects exactly the words that hold the fields of the instruction it builds. -/
def OpcodeRow.SelectsItsFields (r : OpcodeRow) : Prop := ∀ w : Word, r.selects w = true ↔ (r.build w).fields w

theorem opcodeRowsA_selectItsFields : ∀ r ∈ opcodeRowsA, r.SelectsItsFields := by
  simp (disch := decide) only [opcodeRowsA, List.forall_mem_cons, OpcodeRow.SelectsItsFields, selects_F000_iff,
    selects_F00F_iff, Instr.fields, and_true]
  simp [famOf, nOf]

theorem opcodeRowsB_selectItsFields : ∀ r ∈ opcodeRowsB, r.SelectsItsFields := by
  simp (disch := decide) only [opcodeRowsB, List.forall_mem_cons, OpcodeRow.SelectsItsFields, selects_F000_iff,
    selects_F00F_iff, Instr.fields, and_true, true_and]
  simp [famOf, nOf]

theorem opcodeRowsC_selectItsFields : ∀ r ∈ opcodeRowsC, r.SelectsItsFields := by
  simp (disch := decide) only [opcodeRowsC, List.forall_mem_cons, OpcodeRow.SelectsItsFields, selects_F000_iff,
    selects_F00F_iff, selects_F0FF_iff, Instr.fields, and_true, true_and]
  simp [famOf, nOf, kkOf]

theorem opcodeTable_selectItsFields : ∀ r ∈ opcodeTable, r.SelectsItsFields := by
  rw [opcodeTable, List.forall_mem_append, List.forall_mem_append]
  exact ⟨⟨opcodeRowsA_selectItsFields, opcodeRowsB_selectItsFields⟩, opcodeRowsC_selectItsFields⟩

/-- The constructors stand in the order of the rows: the row of an instruction builds it from any word that holds
its fields (R55). -/
theorem build_row_of_fields {i : Instr} {w : Word} (h : i.fields w) :
    opcodeTable[i.ctorIdx]?.map (·.build w) = some i := by
  cases i <;> simp only [Instr.fields] at h <;> casesm* _ ∧ _ <;> subst_vars <;> rfl

/-- A word that decodes is selected by a row of the table. -/
theorem exists_row_of_fields {i : Instr} {w : Word} (h : i.fields w) : ∃ r ∈ opcodeTable, r.selects w = true := by
  obtain ⟨r, hr, rfl⟩ := Option.map_eq_some_iff.1 (build_row_of_fields h)
  have hmem : r ∈ opcodeTable := List.mem_of_getElem? hr
  exact ⟨r, hmem, (opcodeTable_selectItsFields r hmem w).2 h⟩

theorem decode_error_eq {w : Word} {e : Reject} (h : decode w = .error e) : e = .unknownWord w := by
  unfold decode decodeFamily0 decodeFamily8 decodeFamilyE decodeFamilyF at h
  repeat' split at h
  all_goals cases h
  all_goals rfl

/-- Settles O4: a row selects a word exactly when the word holds the fields of what the row builds, and every
instruction that the two-level decoder answers is built by a row. -/
theorem twoLevelDecodeIsTheTableLookup : Obligations.TwoLevelDecodeIsTheTableLookup := by
  intro w
  unfold decodeByTable
  cases hfind : opcodeTable.find? (·.selects w) with
  | some r =>
    have hsel : r.selects w = true := List.find?_some (p := fun r : OpcodeRow => r.selects w) hfind
    exact decode_of_fields ((opcodeTable_selectItsFields r (List.mem_of_find?_eq_some hfind) w).1 hsel)
  | none =>
    cases hdec : decode w with
    | error e => rw [decode_error_eq hdec]
    | ok i =>
      obtain ⟨r, hr, hsel⟩ := exists_row_of_fields (fields_of_decode hdec)
      exact absurd hsel (List.find?_eq_none.1 hfind r hr)

theorem decodeFamily0_error_iff (w : Word) :
    decodeFamily0 w = .error (.unknownWord w) ↔ nOf w ≠ 0x0 ∧ nOf w ≠ 0xE := by
  unfold decodeFamily0
  split <;> simp_all

theorem decodeFamily8_error_iff (w : Word) :
    decodeFamily8 w = .error (.unknownWord w) ↔
      nOf w ∈ ([0x8, 0x9, 0xA, 0xB, 0xC, 0xD, 0xF] : List (BitVec 4)) := by
  unfold decodeFamily8
  generalize nOf w = n
  split
  case h_10 =>
    simp only [true_iff]
    revert n; decide
  all_goals simp

theorem decodeFamilyE_error_iff (w : Word) :
    decodeFamilyE w = .error (.unknownWord w) ↔ nOf w ≠ 0x1 ∧ nOf w ≠ 0xE := by
  unfold decodeFamilyE
  split <;> simp_all

theorem decodeFamilyF_error_iff (w : Word) :
    decodeFamilyF w = .error (.unknownWord w) ↔
      kkOf w ∉ ([0x07, 0x0A, 0x15, 0x18, 0x1E, 0x29, 0x33, 0x55, 0x65] : List Byte) := by
  unfold decodeFamilyF
  split <;> simp_all

/-- Settles O6: only the four families with a key leave words out, each the ones its key does not name. -/
theorem unknownWordsAreExactlyTheTabulated : Obligations.UnknownWordsAreExactlyTheTabulated := by
  intro w
  unfold decode
  split
  case h_1 hf => simp [hf, decodeFamily0_error_iff]
  case h_9 hf => simp [hf, decodeFamily8_error_iff]
  case h_15 hf => simp [hf, decodeFamilyE_error_iff]
  case h_16 =>
    have hf : famOf w = 0xF#4 := nibble_eq_F (by simp_all)
    simp [hf, decodeFamilyF_error_iff]
  all_goals simp [*]

end Sys2Proof
end

section
/-! PROOFS. The layer the statements below rest on: what each write of the state leaves unchanged, and the meaning of
each instruction as an equation. -/

namespace Sys2Proof.Machine

theorem Part.same_refl (p : Part) (s : State) : p.same s s := by
  cases p with
  | i | pc | sp | dt | st | ir | draws => rfl
  | v | stack | mem | keys => exact fun _ => rfl
  | fb => exact fun _ _ => rfl

theorem Part.same_trans {p : Part} {s t u : State} (h : p.same s t) (h' : p.same t u) : p.same s u := by
  cases p with
  | i | pc | sp | dt | st | ir | draws => exact Eq.trans h' h
  | v | stack | mem | keys => exact fun k => (h' k).trans (h k)
  | fb => exact fun y x => (h' y x).trans (h y x)

theorem SameExcept.refl (ps : List Part) (s : State) : SameExcept ps s s := fun p _ => p.same_refl s

theorem SameExcept.mono {ps qs : List Part} {s t : State} (h : SameExcept ps s t) (hsub : ps ⊆ qs) :
    SameExcept qs s t :=
  fun p hp => h p fun hmem => hp (hsub hmem)

/-- Two writes one after the other leave alone what both leave alone. -/
theorem SameExcept.trans {ps qs rs : List Part} {s t u : State} (h : SameExcept ps s t) (h' : SameExcept qs t u)
    (hps : ps ⊆ rs) (hqs : qs ⊆ rs) : SameExcept rs s u :=
  fun p hp => Part.same_trans (h.mono hps p hp) (h'.mono hqs p hp)

theorem sameExcept_setDt (s : State) (b : Byte) : SameExcept [.dt] s (s.setDt b) := by
  intro p hp
  cases p with
  | dt => exact absurd (by decide) hp
  | i | pc | sp | st | ir | draws => rfl
  | v | stack | mem | keys => exact fun _ => rfl
  | fb => exact fun _ _ => rfl

theorem sameExcept_setSt (s : State) (b : Byte) : SameExcept [.st] s (s.setSt b) := by
  intro p hp
  cases p with
  | st => exact absurd (by decide) hp
  | i | pc | sp | dt | ir | draws => rfl
  | v | stack | mem | keys => exact fun _ => rfl
  | fb => exact fun _ _ => rfl

theorem sameExcept_store (s : State) (a : Nat) (bytes : List Byte) : SameExcept [.mem] s (s.store a bytes) := by
  intro p hp
  cases p with
  | mem => exact absurd (by decide) hp
  | i | pc | sp | dt | st | ir | draws => rfl
  | v | stack | keys => exact fun _ => rfl
  | fb => exact fun _ _ => rfl

theorem sameExcept_with_v (s : State) (v : Vector Byte 16) : SameExcept [.v] s { s with v := v } := by
  intro p hp
  cases p with
  | v => exact absurd (by decide) hp
  | i | pc | sp | dt | st | ir | draws => rfl
  | stack | mem | keys => exact fun _ => rfl
  | fb => exact fun _ _ => rfl

theorem sameExcept_loadRegs (s : State) (a : Nat) (x : Reg) : SameExcept [.v] s (s.loadRegs a x) :=
  sameExcept_with_v s _

theorem sameExcept_drawn (s : State) : SameExcept [.draws] s s.drawn := by
  intro p hp
  cases p with
  | draws => exact absurd (by decide) hp
  | i | pc | sp | dt | st | ir => rfl
  | v | stack | mem | keys => exact fun _ => rfl
  | fb => exact fun _ _ => rfl

theorem sameExcept_skipIf (taken : Bool) (s : State) : SameExcept [.pc] s (skipIf taken s) := by
  rw [skipIf_eq_setPc]
  exact sameExcept_setPc s _

theorem sameExcept_setResultAndFlag (s : State) (x : Reg) (b : Byte) (c : Bool) :
    SameExcept [.v] s (s.setResultAndFlag x b c) :=
  (sameExcept_setReg s x b).trans (sameExcept_setReg _ vf _) (List.Subset.refl _) (List.Subset.refl _)

/-- A byte keeps its value as a word. -/
@[simp] theorem zextByte_toNat (b : Byte) : (zextByte b).toNat = b.toNat := by
  rw [zextByte]
  exact BitVec.toNat_setWidth_of_le (by decide)

/-- The target of JP V0 is not reduced: the sum of an address and a byte fits 16 bits (R97). -/
theorem zextAddr_add_zextByte_toNat (nnn : Addr12) (b : Byte) :
    (zextAddr nnn + zextByte b).toNat = nnn.toNat + b.toNat := by
  have := nnn.isLt
  have := b.isLt
  rw [BitVec.toNat_add, zextAddr_toNat, zextByte_toNat]
  omega

theorem exec_ret (s : State) : exec .ret s = popAndGo s := rfl

theorem exec_callAddr (nnn : Addr12) (s : State) : exec (.callAddr nnn) s = pushAndGo (zextAddr nnn) s := rfl

theorem exec_jpV0Addr (nnn : Addr12) (s : State) :
    exec (.jpV0Addr nnn) s = .next (s.setPc (zextAddr nnn + zextByte (s.reg 0))) := rfl

theorem exec_addVxVy (x y : Reg) (s : State) :
    exec (.addVxVy x y) s = .next (s.setResultAndFlag x (s.reg x + s.reg y) (carry (s.reg x) (s.reg y))) := rfl

theorem exec_subVxVy (x y : Reg) (s : State) :
    exec (.subVxVy x y) s = .next (s.setResultAndFlag x (s.reg x - s.reg y) (notBorrow (s.reg x) (s.reg y))) := rfl

theorem exec_shrVx (x : Reg) (s : State) :
    exec (.shrVx x) s = .next (s.setResultAndFlag x (s.reg x / 2) (lowBit (s.reg x))) := rfl

theorem exec_subnVxVy (x y : Reg) (s : State) :
    exec (.subnVxVy x y) s = .next (s.setResultAndFlag x (s.reg y - s.reg x) (notBorrow (s.reg y) (s.reg x))) := rfl

theorem exec_shlVx (x : Reg) (s : State) :
    exec (.shlVx x) s = .next (s.setResultAndFlag x (s.reg x * 2) (highBit (s.reg x))) := rfl

theorem exec_rndVxByte (x : Reg) (kk : Byte) (s : State) :
    exec (.rndVxByte x kk) s = .next (s.setReg x (s.randomByte &&& kk)).drawn := rfl

/-- The canvas that DRW's scan leaves: the framebuffer and the collision (R131). -/
def State.drawCanvas (s : State) (x y : Reg) (n : Nat) : Canvas :=
  scanSprite ((s.reg x).toNat % 64) ((s.reg y).toNat % 32) (s.mem.readBytes s.base n) (s.fb, false)

theorem exec_drwVxVyN (x y : Reg) (n : Nat) (s : State) :
    exec (.drwVxVyN x y n) s = checkRange s.base n
      (.next ((s.setFb (s.drawCanvas x y n).1).setReg vf (flagByte (s.drawCanvas x y n).2))) := rfl

theorem exec_skpVx (x : Reg) (s : State) :
    exec (.skpVx x) s = withKeyIndex (s.reg x) fun k => .next (skipIf (s.key k) s) := rfl

theorem exec_sknpVx (x : Reg) (s : State) :
    exec (.sknpVx x) s = withKeyIndex (s.reg x) fun k => .next (skipIf (!s.key k) s) := rfl

theorem exec_ldVxDt (x : Reg) (s : State) : exec (.ldVxDt x) s = .next (s.setReg x s.dt) := rfl

theorem exec_ldVxK_of_some {s : State} {k : Fin 16} (h : s.leastKey = some k) (x : Reg) :
    exec (.ldVxK x) s = .next (s.setReg x (BitVec.ofNat 8 k.val)) := by
  simp only [exec, execLdVxK, h]

theorem exec_ldVxK_of_none {s : State} (h : s.leastKey = none) (x : Reg) :
    exec (.ldVxK x) s = .next (s.setPc (s.pc - 2)) := by
  simp only [exec, execLdVxK, h]

theorem exec_ldDtVx (x : Reg) (s : State) : exec (.ldDtVx x) s = .next (s.setDt (s.reg x)) := rfl

theorem exec_ldStVx (x : Reg) (s : State) : exec (.ldStVx x) s = .next (s.setSt (s.reg x)) := rfl

theorem exec_addIVx (x : Reg) (s : State) : exec (.addIVx x) s = .next (s.setI (s.i + zextByte (s.reg x))) := rfl

theorem exec_ldFVx (x : Reg) (s : State) : exec (.ldFVx x) s = .next (s.setI (glyphAddress (s.reg x))) := rfl

theorem exec_ldBVx (x : Reg) (s : State) :
    exec (.ldBVx x) s = checkRange s.base 3 (.next (s.store s.base (decimalDigits (s.reg x)))) := rfl

theorem exec_ldMemVx (x : Reg) (s : State) :
    exec (.ldMemVx x) s = checkRange s.base (x.val + 1) (.next (s.store s.base (s.regBlock x))) := rfl

theorem exec_ldVxMem (x : Reg) (s : State) :
    exec (.ldVxMem x) s = checkRange s.base (x.val + 1) (.next (s.loadRegs s.base x)) := rfl

@[simp] theorem decimalDigits_length (b : Byte) : (decimalDigits b).length = 3 := rfl

@[simp] theorem State.regBlock_length (s : State) (x : Reg) : (s.regBlock x).length = x.val + 1 := by
  simp [State.regBlock]

/-- LD Vx,K goes on in two ways: with the least pressed key in V[X], or back at its own address (R143). -/
theorem exec_ldVxK_next {s t : State} {x : Reg} (h : exec (.ldVxK x) s = .next t) :
    (∃ k, s.leastKey = some k ∧ t = s.setReg x (BitVec.ofNat 8 k.val)) ∨
      (s.leastKey = none ∧ t = s.setPc (s.pc - 2)) := by
  cases hk : s.leastKey with
  | some k =>
    rw [exec_ldVxK_of_some hk] at h
    cases h
    exact .inl ⟨k, rfl, rfl⟩
  | none =>
    rw [exec_ldVxK_of_none hk] at h
    cases h
    exact .inr ⟨rfl, rfl⟩

/-- An instruction on a key that goes on found a key number in the register (R140, R141). -/
theorem withKeyIndex_next {b : Byte} {go : Fin 16 → Result} {t : State} (h : withKeyIndex b go = .next t) :
    ∃ k : Fin 16, b.toNat = k.val ∧ go k = .next t := by
  by_cases hb : b.toNat < 16
  · rw [withKeyIndex_ok hb] at h
    exact ⟨⟨b.toNat, hb⟩, rfl, h⟩
  · rw [withKeyIndex_fault hb] at h
    cases h

theorem exec_skpVx_next {s t : State} {x : Reg} (h : exec (.skpVx x) s = .next t) :
    ∃ k : Fin 16, (s.reg x).toNat = k.val ∧ t = skipIf (s.key k) s := by
  rw [exec_skpVx] at h
  obtain ⟨k, hk, hgo⟩ := withKeyIndex_next h
  exact ⟨k, hk, (Host.Outcome.next.inj hgo).symm⟩

theorem exec_sknpVx_next {s t : State} {x : Reg} (h : exec (.sknpVx x) s = .next t) :
    ∃ k : Fin 16, (s.reg x).toNat = k.val ∧ t = skipIf (!s.key k) s := by
  rw [exec_sknpVx] at h
  obtain ⟨k, hk, hgo⟩ := withKeyIndex_next h
  exact ⟨k, hk, (Host.Outcome.next.inj hgo).symm⟩

end Sys2Proof.Machine
end

section
/-! PROOFS. The frame statements (10_state.md): what an instruction may write, of the state and of the registers. -/

namespace Sys2Proof.Machine

/-- Settles O15: one write, or two, for each instruction that completes. -/
theorem instructionsWriteOnlyTheirParts : Obligations.InstructionsWriteOnlyTheirParts := by
  intro i s t h
  cases i with
  | cls => cases h; exact sameExcept_setFb s _
  | ret =>
    obtain ⟨_, -, -, -, frame⟩ := popAndGo_next h
    exact frame
  | callAddr nnn =>
    obtain ⟨-, -, -, -, frame⟩ := pushAndGo_next h
    exact frame
  | jpAddr | jpV0Addr => cases h; exact sameExcept_setPc s _
  | seVxByte | sneVxByte | seVxVy | sneVxVy => cases h; exact sameExcept_skipIf _ s
  | skpVx =>
    obtain ⟨k, -, rfl⟩ := exec_skpVx_next h
    exact sameExcept_skipIf _ s
  | sknpVx =>
    obtain ⟨k, -, rfl⟩ := exec_sknpVx_next h
    exact sameExcept_skipIf _ s
  | ldVxByte | addVxByte | ldVxVy | orVxVy | andVxVy | xorVxVy | ldVxDt => cases h; exact sameExcept_setReg s _ _
  | addVxVy | subVxVy | shrVx | subnVxVy | shlVx => cases h; exact sameExcept_setResultAndFlag s _ _ _
  | ldIAddr | addIVx | ldFVx => cases h; exact sameExcept_setI s _
  | rndVxByte =>
    cases h
    show SameExcept [.v, .draws] s _
    exact (sameExcept_setReg s _ _).trans (sameExcept_drawn _) (by decide) (by decide)
  | drwVxVyN =>
    obtain ⟨-, hgo⟩ := checkRange_next h
    cases hgo
    show SameExcept [.v, .fb] s _
    exact (sameExcept_setFb s _).trans (sameExcept_setReg _ _ _) (by decide) (by decide)
  | ldVxK =>
    show SameExcept [.v, .pc] s t
    rcases exec_ldVxK_next h with ⟨k, -, rfl⟩ | ⟨-, rfl⟩
    · exact (sameExcept_setReg s _ _).mono (by decide)
    · exact (sameExcept_setPc s _).mono (by decide)
  | ldDtVx => cases h; exact sameExcept_setDt s _
  | ldStVx => cases h; exact sameExcept_setSt s _
  | ldBVx | ldMemVx =>
    obtain ⟨-, hgo⟩ := checkRange_next h
    cases hgo
    exact sameExcept_store s _ _
  | ldVxMem =>
    obtain ⟨-, hgo⟩ := checkRange_next h
    obtain rfl := Host.Outcome.next.inj hgo
    exact sameExcept_loadRegs s _ _

/-- Settles O16: an instruction that writes registers writes those it names, the others leave them all as they were. -/
theorem instructionsWriteOnlyTheirRegisters : Obligations.InstructionsWriteOnlyTheirRegisters := by
  intro i s t h r hr
  cases i with
  | ldVxByte x _ | addVxByte x _ | ldVxVy x _ | orVxVy x _ | andVxVy x _ | xorVxVy x _ | ldVxDt x | rndVxByte x _ =>
    cases h
    have hne : r ≠ x := by simpa [writesRegister] using hr
    exact (State.reg_setReg s _ r _).trans (if_neg hne)
  | addVxVy x _ | subVxVy x _ | shrVx x | subnVxVy x _ | shlVx x =>
    cases h
    obtain ⟨hx, hvf⟩ : r ≠ x ∧ r ≠ vf := by simpa [writesRegister] using hr
    rw [State.reg_setResultAndFlag, if_neg hvf, if_neg hx]
  | drwVxVyN =>
    obtain ⟨-, hgo⟩ := checkRange_next h
    cases hgo
    have hvf : r ≠ vf := by simpa [writesRegister] using hr
    exact (State.reg_setReg _ vf r _).trans (if_neg hvf)
  | ldVxK x =>
    rcases exec_ldVxK_next h with ⟨k, -, rfl⟩ | ⟨-, rfl⟩
    · have hne : r ≠ x := by simpa [writesRegister] using hr
      rw [State.reg_setReg, if_neg hne]
    · rfl
  | ldVxMem x =>
    obtain ⟨-, hgo⟩ := checkRange_next h
    obtain rfl := Host.Outcome.next.inj hgo
    rw [State.reg_loadRegs, if_neg (of_decide_eq_false hr)]
  | _ => exact instructionsWriteOnlyTheirParts _ s t h .v (by simp [Part.writtenBy]) r

theorem flagByte_eq_zero_or_one (c : Bool) : flagByte c = 0 ∨ flagByte c = 1 := by cases c <;> decide

@[simp] theorem State.reg_vf_setResultAndFlag (s : State) (x : Reg) (b : Byte) (c : Bool) :
    (s.setResultAndFlag x b c).reg vf = flagByte c := by
  rw [State.reg_setResultAndFlag, if_pos rfl]

/-- Settles O17: the flag is written last, as the byte of a Boolean. -/
theorem flagIsZeroOrOne : Obligations.FlagIsZeroOrOne := by
  intro i s t hi h
  cases i with
  | addVxVy | subVxVy | shrVx | subnVxVy | shlVx =>
    cases h
    rw [State.reg_vf_setResultAndFlag]
    exact flagByte_eq_zero_or_one _
  | drwVxVyN =>
    obtain ⟨-, hgo⟩ := checkRange_next h
    cases hgo
    rw [State.reg_setReg, if_pos rfl]
    exact flagByte_eq_zero_or_one _
  | _ => cases hi

end Sys2Proof.Machine
end

section
/-! PROOFS. The invariant (10_state.md section 3): the reset state meets it, and every step and host
operation keeps it. -/

namespace Sys2Proof.Machine

/-- The state of a reset meets the invariant, whatever the block's FONT. -/
theorem stateInv_resetWith (glyphs : FontTable) : StateInv (State.resetWith glyphs) := by
  obtain ⟨hwf, -, -⟩ := resetWith_mem glyphs
  refine ⟨show (0x200#16).toNat ≤ 0x10FE by decide, fun k => ?_, hwf⟩
  rw [State.resetWith, State.store_stackEntry, State.stackEntry_reset]
  decide

/-- Settles O21: the reset state is that of the default font. -/
theorem resetMeetsTheInvariant : Obligations.ResetMeetsTheInvariant := by
  rw [Obligations.ResetMeetsTheInvariant, ← resetWith_defaultFont]
  exact stateInv_resetWith defaultFont

/-- A skip from an advanced PC stays below the highest PC. -/
theorem skipIf_pc_le {s : State} (hpc : s.pc.toNat ≤ 0x1000) (taken : Bool) : (skipIf taken s).pc.toNat ≤ 0x10FE := by
  rw [skipIf_pc]
  split
  · bv_omega
  · omega

/-- An instruction leaves PC in the range of R17: a target of 12 bits, plus V0 at most, or a stack entry, or a skip. -/
theorem exec_pc_le {i : Instr} {s t : State} (h : exec i s = .next t) (hlo : 2 ≤ s.pc.toNat) (hpc : s.pc.toNat ≤ 0x1000)
    (hstack : ∀ k, (s.stackEntry k).toNat ≤ 0x1000) : t.pc.toNat ≤ 0x10FE := by
  cases i with
  | ret =>
    obtain ⟨k, -, hpop, -, -⟩ := popAndGo_next h
    have := hstack k
    rw [hpop]
    omega
  | callAddr nnn =>
    obtain ⟨-, hgo, -, -, -⟩ := pushAndGo_next h
    have := nnn.isLt
    rw [hgo, zextAddr_toNat]
    omega
  | jpAddr nnn =>
    cases h
    have := nnn.isLt
    rw [State.setPc_pc, zextAddr_toNat]
    omega
  | jpV0Addr nnn =>
    cases h
    have := nnn.isLt
    have := (s.reg 0).isLt
    rw [State.setPc_pc, zextAddr_add_zextByte_toNat]
    omega
  | seVxByte | sneVxByte | seVxVy | sneVxVy => cases h; exact skipIf_pc_le hpc _
  | skpVx =>
    obtain ⟨k, -, rfl⟩ := exec_skpVx_next h
    exact skipIf_pc_le hpc _
  | sknpVx =>
    obtain ⟨k, -, rfl⟩ := exec_sknpVx_next h
    exact skipIf_pc_le hpc _
  | ldVxK =>
    rcases exec_ldVxK_next h with ⟨k, -, rfl⟩ | ⟨-, rfl⟩
    · rw [State.setReg_pc]
      omega
    · rw [State.setPc_pc]
      bv_omega
  | _ =>
    have hsame : t.pc = s.pc := instructionsWriteOnlyTheirParts _ s t h .pc (by simp [Part.writtenBy])
    rw [hsame]
    omega

/-- CALL stores the advanced PC, and no other instruction writes a stack entry. -/
theorem exec_stackEntry_le {i : Instr} {s t : State} (h : exec i s = .next t) (hpc : s.pc.toNat ≤ 0x1000)
    (hstack : ∀ k, (s.stackEntry k).toNat ≤ 0x1000) (k : Fin 16) : (t.stackEntry k).toNat ≤ 0x1000 := by
  cases i with
  | callAddr nnn =>
    obtain ⟨-, -, -, hpush, -⟩ := pushAndGo_next h
    rw [hpush]
    split
    · exact hpc
    · exact hstack k
  | _ =>
    have hsame : t.stackEntry k = s.stackEntry k :=
      instructionsWriteOnlyTheirParts _ s t h .stack (by simp [Part.writtenBy]) k
    rw [hsame]
    exact hstack k

/-- An instruction keeps memory canonical: a store in range does, and the others leave the list as it is. -/
theorem exec_mem_wf {i : Instr} {s t : State} (h : exec i s = .next t) (hmem : s.mem.wf = true) : t.mem.wf = true := by
  cases i with
  | ldBVx x =>
    obtain ⟨hrange, hgo⟩ := checkRange_next h
    cases hgo
    exact (Memory.writeBytes_spec hmem (by simpa using hrange)).1
  | ldMemVx x =>
    obtain ⟨hrange, hgo⟩ := checkRange_next h
    cases hgo
    exact (Memory.writeBytes_spec hmem (by simpa using hrange)).1
  | ret =>
    rw [exec_ret, popAndGo] at h
    split at h
    · cases h
    · cases h; exact hmem
  | callAddr nnn =>
    rw [exec_callAddr, pushAndGo] at h
    split at h
    · cases h; exact hmem
    · cases h
  | skpVx =>
    obtain ⟨k, -, rfl⟩ := exec_skpVx_next h
    rwa [skipIf_mem]
  | sknpVx =>
    obtain ⟨k, -, rfl⟩ := exec_sknpVx_next h
    rwa [skipIf_mem]
  | seVxByte | sneVxByte | seVxVy | sneVxVy => cases h; rwa [skipIf_mem]
  | drwVxVyN =>
    obtain ⟨-, hgo⟩ := checkRange_next h
    cases hgo
    exact hmem
  | ldVxMem =>
    obtain ⟨-, hgo⟩ := checkRange_next h
    obtain rfl := Host.Outcome.next.inj hgo
    rwa [State.loadRegs_mem]
  | ldVxK =>
    rcases exec_ldVxK_next h with ⟨k, -, rfl⟩ | ⟨-, rfl⟩
    · exact hmem
    · exact hmem
  | _ => cases h; exact hmem

/-- The tick writes no part that the invariant is about. -/
theorem stateInv_tick {s : State} (hs : StateInv s) : StateInv (tick s) := hs

/-- Settles O22: the advance puts PC between 2 and 0x1000, from where each of the three bounds is kept. -/
theorem stepKeepsTheInvariant : Obligations.StepKeepsTheInvariant := by
  intro s t hs hstep
  obtain ⟨-, hstack, hmem⟩ := hs
  obtain ⟨hpc, u, rfl, hrun⟩ := step_next hstep
  have hadv := State.advance_pc_toNat hpc
  have hpcHi : s.advance.pc.toNat ≤ 0x1000 := by omega
  refine stateInv_tick ?_
  rcases hrun with ⟨i, -, hexec⟩ | ⟨e, -, rfl⟩
  · exact ⟨exec_pc_le hexec (by omega) hpcHi hstack, exec_stackEntry_le hexec hpcHi hstack, exec_mem_wf hexec hmem⟩
  · exact ⟨by omega, hstack, hmem⟩

theorem loadRom_ok {bytes : List Byte} (h : bytes.length ≤ 3584) (s : State) :
    loadRom bytes s = .ok (s.store Config.romEntry bytes) := if_pos h

theorem loadRom_error {bytes : List Byte} (h : bytes.length > 3584) (s : State) :
    loadRom bytes s = .error .romTooLarge := if_neg (Nat.not_le.2 h)

theorem applyHostOp_loadRom_ok {bytes : List Byte} (h : bytes.length ≤ 3584) (glyphs : FontTable) (s : State) :
    applyHostOp glyphs (.loadRom bytes) s = s.store Config.romEntry bytes := by
  simp only [applyHostOp, loadRom_ok h]

/-- A rejected load leaves the block as it was (R174). -/
theorem applyHostOp_loadRom_error {bytes : List Byte} (h : bytes.length > 3584) (glyphs : FontTable) (s : State) :
    applyHostOp glyphs (.loadRom bytes) s = s := by
  simp only [applyHostOp, loadRom_error h]

theorem applyHostOp_step_next {s t : State} (h : step s = .next t) (glyphs : FontTable) :
    applyHostOp glyphs .step s = t := by
  simp only [applyHostOp, h]

/-- A faulting step leaves the block as it was (R151). -/
theorem applyHostOp_step_fault {s : State} {f : Fault} (h : step s = .fault f) (glyphs : FontTable) :
    applyHostOp glyphs .step s = s := by
  simp only [applyHostOp, h]

/-- Every host operation keeps the invariant. -/
theorem applyHostOp_keeps_stateInv (glyphs : FontTable) (op : HostOp) {s : State} (hs : StateInv s) :
    StateInv (applyHostOp glyphs op s) := by
  cases op with
  | reset => exact stateInv_resetWith glyphs
  | loadRom bytes =>
    rcases Nat.lt_or_ge 3584 bytes.length with hlong | hfits
    · rwa [applyHostOp_loadRom_error hlong]
    · obtain ⟨hpc, hstack, hmem⟩ := hs
      rw [applyHostOp_loadRom_ok hfits]
      exact ⟨hpc, hstack, (Memory.writeBytes_spec hmem (by rw [Config.romEntry]; omega)).1⟩
  | keys sample => exact hs
  | step =>
    cases hstep : step s with
    | next t =>
      rw [applyHostOp_step_next hstep]
      exact stepKeepsTheInvariant s t hs hstep
    | fault f => rwa [applyHostOp_step_fault hstep]
    | refused r => simpa only [applyHostOp, hstep] using hs

/-- Settles O23: the reset meets the invariant, and each operation of the list keeps it. -/
theorem hostReachableStatesMeetTheInvariant : Obligations.HostReachableStatesMeetTheInvariant := by
  intro glyphs ops
  exact List.foldlRecOn ops _ (stateInv_resetWith glyphs) fun _ hs op _ => applyHostOp_keeps_stateInv glyphs op hs

end Sys2Proof.Machine
end

section
/-! PROOFS. The step (40_step_pipeline.md, 60_exceptions.md): what it runs, when it faults, and what it does to the
timers. -/

namespace Sys2Proof.Machine

/-- With a fetch in memory, a step on a word that decodes is the meaning of the instruction on the advanced state and
then the tick (R70). -/
theorem step_of_decode_ok {s : State} {i : Instr} (hpc : s.pc.toNat ≤ 0xFFE) (h : decode s.fetchWord = .ok i) :
    step s = finish (exec i s.advance) := by
  rw [step, checkRange_ok (.inr (by omega))]
  simp only [executeWord, h]

theorem step_of_exec_next {s t : State} {i : Instr} (hpc : s.pc.toNat ≤ 0xFFE) (h : decode s.fetchWord = .ok i)
    (hexec : exec i s.advance = .next t) : step s = .next (tick t) := by
  rw [step_of_decode_ok hpc h, hexec, finish]

theorem step_of_exec_fault {s : State} {i : Instr} {f : Fault} (hpc : s.pc.toNat ≤ 0xFFE)
    (h : decode s.fetchWord = .ok i) (hexec : exec i s.advance = .fault f) : step s = .fault f := by
  rw [step_of_decode_ok hpc h, hexec, finish]

theorem step_of_pc_beyond {s : State} (hpc : s.pc.toNat > 0xFFE) :
    step s = .fault (.addressFault (max s.pc.toNat 0x1000)) :=
  checkRange_fault (by omega) _

/-- Settles O8: the advanced state is the one the statement writes out, and so is the tick. -/
theorem stepRunsTheDecodedInstruction : Obligations.StepRunsTheDecodedInstruction :=
  fun _ _ hpc hdec => ⟨fun _ => step_of_exec_next hpc hdec, fun _ => step_of_exec_fault hpc hdec⟩

/-- Settles O10: the range check of the fetch fails, and names PC, or 0x1000 when PC itself is still in memory. -/
theorem fetchBeyondMemoryFaults : Obligations.FetchBeyondMemoryFaults := by
  intro s hpc
  rw [step_of_pc_beyond hpc]
  congr 2
  split <;> omega

/-- Settles O13: the outcome of a fault carries no state, so the host keeps the old one, which faults again. -/
theorem faultingStepChangesNothing : Obligations.FaultingStepChangesNothing := by
  intro glyphs s f hstep
  have hsame := applyHostOp_step_fault hstep glyphs
  refine ⟨hsame, fun n => ?_⟩
  induction n with
  | zero => exact hstep
  | succ n ih => rw [List.replicate_succ, List.foldl_cons, hsame, ih]

/-- The result is the fault given, or goes on when none is. -/
def AnswersAs (r : Result) : Option Fault → Prop
  | some f => r = .fault f
  | none => ∃ t, r = .next t

theorem checkRange_answersAs (a n : Nat) (t : State) : AnswersAs (checkRange a n (.next t)) (rangeFault a n) := by
  rw [checkRange_eq]
  cases rangeFault a n with
  | some f => rfl
  | none => exact ⟨t, rfl⟩

theorem withKeyIndex_answersAs (b : Byte) (go : Fin 16 → State) :
    AnswersAs (withKeyIndex b fun k => .next (go k)) (if b.toNat > 15 then some (.keyIndexFault b) else none) := by
  split
  · exact withKeyIndex_fault (by omega) _
  · exact ⟨_, withKeyIndex_ok (by omega) _⟩

/-- An instruction faults as the table of R150 says, and goes on otherwise. -/
theorem exec_answersAs (i : Instr) (s : State) : AnswersAs (exec i s) (instrFault (s.pc - 2) s i) := by
  cases i with
  | drwVxVyN | ldBVx | ldMemVx | ldVxMem => exact checkRange_answersAs _ _ _
  | skpVx x => exact withKeyIndex_answersAs (s.reg x) fun k => skipIf (s.key k) s
  | sknpVx x => exact withKeyIndex_answersAs (s.reg x) fun k => skipIf (!s.key k) s
  | callAddr =>
    rw [instrFault]
    split
    case isTrue hsp => exact pushAndGo_full (by rw [hsp]; decide) _
    case isFalse hsp => exact ⟨_, pushAndGo_ok (by have := Fin.val_ne_of_ne hsp; omega) _⟩
  | ret =>
    rw [instrFault]
    split
    case isTrue hsp => exact popAndGo_empty (by rw [hsp]; decide)
    case isFalse hsp => exact ⟨_, popAndGo_ok (Fin.val_ne_of_ne hsp)⟩
  | ldVxK x =>
    cases hk : s.leastKey with
    | some k => exact ⟨_, exec_ldVxK_of_some hk x⟩
    | none => exact ⟨_, exec_ldVxK_of_none hk x⟩
  | _ => exact ⟨_, rfl⟩

/-- The advance changes nothing that the table of R150 looks at. -/
theorem instrFault_advance (pc : Word) (s : State) (i : Instr) : instrFault pc s.advance i = instrFault pc s i := by
  cases i <;> rfl

theorem finish_answersAs {r : Result} {o : Option Fault} (h : AnswersAs r o) : AnswersAs (finish r) o := by
  cases o with
  | some f =>
    have hr : r = .fault f := h
    rw [hr]
    rfl
  | none =>
    obtain ⟨t, rfl⟩ := h
    exact ⟨tick t, rfl⟩

theorem step_answersAs (s : State) : AnswersAs (step s) (predictedFault s) := by
  unfold predictedFault
  split
  case isTrue hpc => exact step_of_pc_beyond hpc
  case isFalse hpc =>
    have hpc : s.pc.toNat ≤ 0xFFE := by omega
    split
    case h_1 i hdec =>
      have hown : s.advance.pc - 2 = s.pc := by rw [State.advance_pc, BitVec.add_sub_cancel]
      rw [step_of_decode_ok hpc hdec, ← instrFault_advance, ← hown]
      exact finish_answersAs (exec_answersAs i s.advance)
    case h_2 e hdec => exact ⟨_, step_of_decode_error hpc hdec⟩

/-- Settles O14: the step answers as predicted, and a fault and a next state exclude each other. -/
theorem stepFaultsExactlyAsTabulated : Obligations.StepFaultsExactlyAsTabulated := by
  intro s
  have answer := step_answersAs s
  cases hp : predictedFault s with
  | some f =>
    rw [hp] at answer
    have hstep : step s = .fault f := answer
    rw [hstep]
    simp
  | none =>
    rw [hp] at answer
    obtain ⟨t, hstep⟩ := answer
    rw [hstep]
    simp

/-- Only LD DT,Vx writes DT in the execute phase (R20, R144). -/
theorem exec_dt {i : Instr} {s t : State} (h : exec i s = .next t) (hi : ∀ x, i ≠ .ldDtVx x) : t.dt = s.dt := by
  cases i with
  | ldDtVx x => exact absurd rfl (hi x)
  | _ => exact instructionsWriteOnlyTheirParts _ s t h .dt (by simp [Part.writtenBy])

/-- Only LD ST,Vx writes ST in the execute phase (R20, R145). -/
theorem exec_st {i : Instr} {s t : State} (h : exec i s = .next t) (hi : ∀ x, i ≠ .ldStVx x) : t.st = s.st := by
  cases i with
  | ldStVx x => exact absurd rfl (hi x)
  | _ => exact instructionsWriteOnlyTheirParts _ s t h .st (by simp [Part.writtenBy])

/-- Settles O11: the tick takes one from what the execute phase left, which is the old value but after the two loads. -/
theorem everyStepTicksBothTimers : Obligations.EveryStepTicksBothTimers := by
  intro s t hstep
  obtain ⟨-, u, rfl, hrun⟩ := step_next hstep
  rw [tick_dt, tick_st, countDown_toNat, countDown_toNat]
  rcases hrun with ⟨i, hdec, hexec⟩ | ⟨e, hdec, rfl⟩
  · rw [hdec]
    refine ⟨fun hi => ?_, fun x hi => ?_, fun hi => ?_, fun x hi => ?_⟩
    · rw [exec_dt hexec fun x hx => hi x (congrArg _ hx), State.advance_dt]
    · cases hi
      cases hexec
      rfl
    · rw [exec_st hexec fun x hx => hi x (congrArg _ hx), State.advance_st]
    · cases hi
      cases hexec
      rfl
  · rw [hdec]
    exact ⟨fun _ => rfl, nofun, fun _ => rfl, nofun⟩

/-- Settles O12, by induction on the samples: one step takes one from DT, and the rest does so from where it stands. -/
theorem delayTimerFallsByOnePerStep : Obligations.DelayTimerFallsByOnePerStep := by
  intro samples
  induction samples with
  | nil =>
    intro s t _ hrun
    cases hrun
    rfl
  | cons keys samples ih =>
    intro s t hno hrun
    obtain ⟨u, hstep, hrest⟩ := runSamples_cons_inv hrun
    have hfirst : u.dt.toNat = s.dt.toNat - 1 :=
      (everyStepTicksBothTimers (s.setKeys keys) u hstep).1 (hno 0 s (Nat.succ_pos _) rfl)
    have hlater := ih u t
      (fun k u' hk hu' => hno (k + 1) u' (Nat.succ_lt_succ hk) ((runSamples_cons_next hstep).trans hu')) hrest
    rw [hlater, hfirst, List.length_cons]
    omega

/-- Settles O52: the meaning reads the old DT, and the tick follows the load. -/
theorem timerStepsReadBeforeTheTick : Obligations.TimerStepsReadBeforeTheTick := by
  intro s x hpc
  refine ⟨fun hdec => ?_, fun hdec => ?_, fun hdec => ?_⟩
  · refine ⟨_, step_of_exec_next hpc hdec (exec_ldVxDt x s.advance), ?_, ?_⟩
    · rw [tick_reg, State.reg_setReg, if_pos rfl, State.advance_dt]
    · rw [tick_dt, countDown_toNat, State.setReg_dt, State.advance_dt]
  · refine ⟨_, step_of_exec_next hpc hdec (exec_ldDtVx x s.advance), ?_⟩
    rw [tick_dt, countDown_toNat, State.setDt_dt, State.advance_reg]
  · refine ⟨_, step_of_exec_next hpc hdec (exec_ldStVx x s.advance), ?_⟩
    rw [tick_st, countDown_toNat, State.setSt_st, State.advance_reg]

end Sys2Proof.Machine
end

section
/-! PROOFS. Non-interference (10_state.md section 4, 60_exceptions.md R160, R162): the parts that few
instructions read. -/

namespace Sys2Proof.Machine

/-- Apply a change to the next state, if there is one. -/
def mapNext (f : State → State) : Result → Result
  | .next t => .next (f t)
  | .fault r => .fault r
  | .refused r => .refused r

/-- `s` with ST, the keypad sample and the counter of drawn bytes changed: the parts that few instructions read. -/
def State.mapHidden (s : State) (g : Byte → Byte) (k : Vector Bool 16 → Vector Bool 16) (d : Nat → Nat) : State :=
  { s with st := g s.st, keys := k s.keys, draws := d s.draws }

/-- Each change is none, or the instruction does not use its part. -/
structure HiddenFrom (g : Byte → Byte) (k : Vector Bool 16 → Vector Bool 16) (d : Nat → Nat) (i : Instr) : Prop where
  sound : ∀ x, i = .ldStVx x → g = id
  keys : readsKeys i = true → k = id
  draws : ∀ x kk, i = .rndVxByte x kk → d = id

theorem mapNext_checkRange (f : State → State) (a n : Nat) (r : Result) :
    mapNext f (checkRange a n r) = checkRange a n (mapNext f r) := by
  unfold checkRange
  split <;> rfl

theorem mapNext_withKeyIndex (f : State → State) (b : Byte) (go : Fin 16 → Result) :
    mapNext f (withKeyIndex b go) = withKeyIndex b fun k => mapNext f (go k) := by
  unfold withKeyIndex
  split <;> rfl

section
variable (s : State) (g : Byte → Byte) (k : Vector Bool 16 → Vector Bool 16) (d : Nat → Nat)

theorem skipIf_mapHidden (taken : Bool) : skipIf taken (s.mapHidden g k d) = (skipIf taken s).mapHidden g k d := by
  cases taken <;> rfl

theorem pushAndGo_mapHidden (target : Word) :
    pushAndGo target (s.mapHidden g k d) = mapNext (·.mapHidden g k d) (pushAndGo target s) := by
  by_cases h : s.sp.val < 16
  · rw [pushAndGo_ok h, pushAndGo_ok (s := s.mapHidden g k d) h]
    rfl
  · rw [pushAndGo_full h, pushAndGo_full (s := s.mapHidden g k d) h]
    rfl

theorem popAndGo_mapHidden : popAndGo (s.mapHidden g k d) = mapNext (·.mapHidden g k d) (popAndGo s) := by
  by_cases h : s.sp.val = 0
  · rw [popAndGo_empty h, popAndGo_empty (s := s.mapHidden g k d) h]
    rfl
  · rw [popAndGo_ok h, popAndGo_ok (s := s.mapHidden g k d) h]
    rfl

end

/-- An instruction from which a change is hidden does the same on the changed state, and keeps the change. -/
theorem exec_mapHidden {g : Byte → Byte} {k : Vector Bool 16 → Vector Bool 16} {d : Nat → Nat} {i : Instr}
    (hi : HiddenFrom g k d i) (s : State) : exec i (s.mapHidden g k d) = mapNext (·.mapHidden g k d) (exec i s) := by
  cases i with
  | ret => exact popAndGo_mapHidden s g k d
  | callAddr => exact pushAndGo_mapHidden s g k d _
  | seVxByte | sneVxByte | seVxVy | sneVxVy => exact congrArg _ (skipIf_mapHidden s g k d _)
  | drwVxVyN => rw [exec_drwVxVyN, exec_drwVxVyN, mapNext_checkRange]; rfl
  | ldBVx => rw [exec_ldBVx, exec_ldBVx, mapNext_checkRange]; rfl
  | ldMemVx => rw [exec_ldMemVx, exec_ldMemVx, mapNext_checkRange]; rfl
  | ldVxMem => rw [exec_ldVxMem, exec_ldVxMem, mapNext_checkRange]; rfl
  | skpVx x =>
    rw [exec_skpVx, exec_skpVx, mapNext_withKeyIndex]
    obtain rfl := hi.keys rfl
    exact congrArg _ (funext fun j => congrArg _ (skipIf_mapHidden s g id d (s.key j)))
  | sknpVx x =>
    rw [exec_sknpVx, exec_sknpVx, mapNext_withKeyIndex]
    obtain rfl := hi.keys rfl
    exact congrArg _ (funext fun j => congrArg _ (skipIf_mapHidden s g id d (!s.key j)))
  | ldVxK x =>
    obtain rfl := hi.keys rfl
    cases hk : s.leastKey with
    | some j => rw [exec_ldVxK_of_some hk, exec_ldVxK_of_some (s := s.mapHidden g id d) hk]; rfl
    | none => rw [exec_ldVxK_of_none hk, exec_ldVxK_of_none (s := s.mapHidden g id d) hk]; rfl
  | ldStVx x =>
    obtain rfl := hi.sound x rfl
    rfl
  | rndVxByte x kk =>
    obtain rfl := hi.draws x kk rfl
    rfl
  | _ => rfl

/-- The tick keeps a change of the hidden parts, the counted-down one of ST. -/
theorem finish_mapHidden {g g' : Byte → Byte} (hg : ∀ b, countDown (g b) = g' (countDown b))
    (k : Vector Bool 16 → Vector Bool 16) (d : Nat → Nat) (r : Result) :
    finish (mapNext (·.mapHidden g k d) r) = mapNext (·.mapHidden g' k d) (finish r) := by
  cases r with
  | next t => exact congrArg (fun b => Host.Outcome.next { (tick t).mapHidden g' k d with st := b }) (hg t.st)
  | fault f => rfl
  | refused r => rfl

/-- A step keeps a change that is hidden from the instruction it runs. -/
theorem step_mapHidden {g g' : Byte → Byte} {k : Vector Bool 16 → Vector Bool 16} {d : Nat → Nat} {s : State}
    (hg : ∀ b, countDown (g b) = g' (countDown b)) (hi : ∀ i, decode s.fetchWord = .ok i → HiddenFrom g k d i) :
    step (s.mapHidden g k d) = mapNext (·.mapHidden g' k d) (step s) := by
  have hexecute : executeWord s.fetchWord (s.advance.mapHidden g k d) =
      mapNext (·.mapHidden g k d) (executeWord s.fetchWord s.advance) := by
    cases hdec : decode s.fetchWord with
    | error e => rw [executeWord_of_decode_error hdec, executeWord_of_decode_error hdec]; rfl
    | ok i => simp only [executeWord, hdec, exec_mapHidden (hi i hdec)]
  unfold step
  rw [mapNext_checkRange, ← finish_mapHidden hg, ← hexecute]
  rfl

/-- No instruction writes the keypad sample. -/
theorem exec_keys {i : Instr} {s t : State} (h : exec i s = .next t) : t.keys = s.keys := by
  have hsame : ∀ j, t.key j = s.key j :=
    instructionsWriteOnlyTheirParts i s t h .keys (by cases i <;> simp [Part.writtenBy])
  exact Vector.ext fun j hj => hsame ⟨j, hj⟩

/-- Only RND moves the counter of drawn bytes. -/
theorem exec_draws {i : Instr} {s t : State} (h : exec i s = .next t) (hi : ∀ x kk, i ≠ .rndVxByte x kk) :
    t.draws = s.draws := by
  cases i with
  | rndVxByte x kk => exact absurd rfl (hi x kk)
  | _ => exact instructionsWriteOnlyTheirParts _ s t h .draws (by simp [Part.writtenBy])

/-- Settles O18: the sample is a part no instruction writes, and a change of it is hidden from all but the three. -/
theorem onlyThreeInstructionsReadTheKeypad : Obligations.OnlyThreeInstructionsReadTheKeypad := by
  intro s
  refine ⟨fun t hstep => ?_, fun hi keys => ?_⟩
  · obtain ⟨-, u, rfl, ⟨i, -, hexec⟩ | ⟨e, -, rfl⟩⟩ := step_next hstep
    · rw [tick_keys, exec_keys hexec, State.advance_keys]
    · rfl
  · have hsample : step (s.setKeys keys) = mapNext (·.setKeys keys) (step s) :=
      step_mapHidden (g' := id) (k := fun _ => keys) (d := id) (fun _ => rfl) fun i hdec =>
        ⟨fun _ _ => rfl, fun hreads => absurd hreads (by rw [hi i hdec]; decide), fun _ _ _ => rfl⟩
    refine ⟨fun t hstep => ?_, fun f hstep => ?_⟩ <;> rw [hsample, hstep] <;> rfl

/-- Settles O20: a change of the counter is hidden from all but RND, which alone moves it. -/
theorem onlyRndDrawsARandomByte : Obligations.OnlyRndDrawsARandomByte := by
  intro s n hrnd
  have hcounter : step { s with draws := n } = mapNext (fun t => { t with draws := n }) (step s) :=
    step_mapHidden (g' := id) (k := id) (d := fun _ => n) (fun _ => rfl) fun i hdec =>
      ⟨fun _ _ => rfl, fun _ => rfl, fun x kk hi => absurd (hi ▸ hdec) (hrnd x kk)⟩
  refine ⟨fun t hstep => ⟨?_, ?_⟩, fun f hstep => ?_⟩
  · rw [hcounter, hstep]
    rfl
  · obtain ⟨-, u, rfl, ⟨i, hdec, hexec⟩ | ⟨e, -, rfl⟩⟩ := step_next hstep
    · rw [tick_draws, exec_draws hexec fun x kk hi => hrnd x kk (hi ▸ hdec), State.advance_draws]
    · rfl
  · rw [hcounter, hstep]
    rfl

/-- A step takes IR from the fetch. -/
theorem step_ir (s : State) (w : Word) : step { s with ir := w } = step s := rfl

/-- A step of LD ST,Vx replaces ST. -/
theorem step_ldStVx_st {s : State} {x : Reg} (hdec : decode s.fetchWord = .ok (.ldStVx x)) (b : Byte) :
    step { s with st := b } = step s := by
  have hexecute : executeWord s.fetchWord { s.advance with st := b } = executeWord s.fetchWord s.advance := by
    simp only [executeWord, hdec]
    rfl
  rw [step, step, ← hexecute]
  rfl

/-- Settles O19: LD ST,Vx replaces ST, and from every other instruction a change of it is hidden; IR is replaced by
every fetch. -/
theorem soundTimerAndOldIrAreNeverRead : Obligations.SoundTimerAndOldIrAreNeverRead := by
  intro s b w
  have hir : step { s with st := b, ir := w } = step { s with st := b } := step_ir { s with st := b } w
  rw [hir]
  by_cases hload : ∃ x, decode s.fetchWord = .ok (.ldStVx x)
  · obtain ⟨x, hdec⟩ := hload
    rw [step_ldStVx_st hdec b]
    exact ⟨fun t hstep => ⟨t, hstep, SameExcept.refl _ t⟩, fun f hstep => hstep⟩
  · have hsound : step { s with st := b } = mapNext (·.setSt (countDown b)) (step s) :=
      step_mapHidden (g := fun _ => b) (g' := fun _ => countDown b) (k := id) (d := id) (fun _ => rfl) fun i hdec =>
        ⟨fun x hi => absurd ⟨x, hi ▸ hdec⟩ hload, fun _ => rfl, fun _ _ _ => rfl⟩
    rw [hsound]
    refine ⟨fun t hstep => ⟨_, by rw [hstep]; rfl, sameExcept_setSt t _⟩, fun f hstep => ?_⟩
    rw [hstep]
    rfl

end Sys2Proof.Machine
end

section
/-! PROOFS. The stores and loads of memory (43_index_memory.md), the load of a program and the reset
(70_reset_and_hazards.md). -/

namespace Sys2Proof.Machine

theorem checkRange_last_ok {a k : Nat} (h : a + k ≤ 0xFFF) (go : Result) : checkRange a (k + 1) go = go :=
  checkRange_ok (.inr (by omega)) go

theorem checkRange_last_fault {a k : Nat} (h : a + k > 0xFFF) (go : Result) :
    checkRange a (k + 1) go = .fault (.addressFault (max a 0x1000)) :=
  checkRange_fault (by omega) go

/-- A byte that a store in range wrote reads back. -/
theorem Memory.read_writeBytes_of_getElem? {m : Memory} (hm : m.wf = true) {a : Nat} {bs : List Byte}
    (hrange : a + bs.length ≤ 0x1000) {k : Nat} {b : Byte} (hb : bs[k]? = some b) :
    (m.writeBytes a bs).read (a + k) = b := by
  rw [(Memory.writeBytes_spec hm hrange).2, if_pos (Nat.le_add_right a k), Nat.add_sub_cancel_left,
    List.getD_eq_getElem?_getD, hb, Option.getD_some]

/-- An address that a store in range does not cover reads as before. -/
theorem Memory.read_writeBytes_outside {m : Memory} (hm : m.wf = true) {a : Nat} {bs : List Byte}
    (hrange : a + bs.length ≤ 0x1000) {c : Nat} (hc : c < a ∨ a + bs.length ≤ c) :
    (m.writeBytes a bs).read c = m.read c := by
  rw [(Memory.writeBytes_spec hm hrange).2]
  split
  · exact List.getD_eq_default _ _ (by omega)
  · rfl

/-- Settles O39: the store is of the three digits, which a byte is wide enough for. -/
theorem storeDecimalDigitsOfVx : Obligations.StoreDecimalDigitsOfVx := by
  intro s x hmem
  rw [exec_ldBVx]
  refine ⟨fun hrange => ?_, fun hrange => checkRange_last_fault hrange _⟩
  have hlen : s.base + (decimalDigits (s.reg x)).length ≤ 0x1000 := by
    rw [decimalDigits_length]
    omega
  refine ⟨_, checkRange_last_ok hrange _, ?_, ?_, ?_, fun a ha => ?_, sameExcept_store s _ _⟩
  · exact (congrArg BitVec.toNat (Memory.read_writeBytes_of_getElem? hmem hlen (k := 0) rfl)).trans BitVec.toNat_udiv
  · rw [State.store_mem, Memory.read_writeBytes_of_getElem? hmem hlen (k := 1) rfl, BitVec.toNat_umod,
      BitVec.toNat_udiv]
    rfl
  · rw [State.store_mem, Memory.read_writeBytes_of_getElem? hmem hlen (k := 2) rfl, BitVec.toNat_umod]
    rfl
  · rw [State.store_mem]
    exact Memory.read_writeBytes_outside hmem hlen (by rw [decimalDigits_length]; omega)

theorem State.regBlock_getElem? (s : State) {r x : Reg} (h : r ≤ x) : (s.regBlock x)[r.val]? = some (s.reg r) := by
  have hr : r.val < x.val + 1 := Nat.lt_succ_of_le h
  rw [State.regBlock, List.getElem?_take_of_lt hr]
  simp [State.reg]

/-- What a store of V0..VX left at the addresses from I. -/
theorem State.read_store_regBlock {s : State} {x r : Reg} (hmem : s.mem.wf = true) (hrange : s.base + x.val ≤ 0xFFF)
    (hr : r ≤ x) : (s.store s.base (s.regBlock x)).mem.read (s.base + r.val) = s.reg r :=
  Memory.read_writeBytes_of_getElem? hmem (by rw [State.regBlock_length]; omega) (s.regBlock_getElem? hr)

/-- Settles O40: the store is of the block V0..VX. -/
theorem storeRegistersThroughVx : Obligations.StoreRegistersThroughVx := by
  intro s x hmem
  rw [exec_ldMemVx]
  refine ⟨fun hrange => ?_, fun hrange => checkRange_last_fault hrange _⟩
  have hlen : s.base + (s.regBlock x).length ≤ 0x1000 := by
    rw [State.regBlock_length]
    omega
  exact ⟨_, checkRange_last_ok hrange _, fun r hr => State.read_store_regBlock hmem hrange hr,
    fun a ha => Memory.read_writeBytes_outside hmem hlen (by rw [State.regBlock_length]; omega), sameExcept_store s _ _⟩

/-- Settles O41: the load is of the bytes from I. -/
theorem loadRegistersThroughVx : Obligations.LoadRegistersThroughVx := by
  intro s x
  rw [exec_ldVxMem]
  refine ⟨fun hrange => ?_, fun hrange => checkRange_last_fault hrange _⟩
  exact ⟨_, checkRange_last_ok hrange _, fun r => State.reg_loadRegs s s.base x r, sameExcept_loadRegs s _ _⟩

/-- A store of V0..VX that goes on was in range. -/
theorem exec_ldMemVx_next {s t : State} {x : Reg} (h : exec (.ldMemVx x) s = .next t) :
    s.base + x.val ≤ 0xFFF ∧ t = s.store s.base (s.regBlock x) := by
  rw [exec_ldMemVx] at h
  obtain ⟨hrange, hgo⟩ := checkRange_next h
  exact ⟨by omega, (Host.Outcome.next.inj hgo).symm⟩

/-- Settles O42: the load finds I where the store had it, so it is in range, and each byte reads back. -/
theorem loadAfterStoreRestoresRegisters : Obligations.LoadAfterStoreRestoresRegisters := by
  intro s t u x hmem hstore humem hui
  obtain ⟨hrange, rfl⟩ := exec_ldMemVx_next hstore
  have hbase : u.base = s.base := congrArg BitVec.toNat hui
  obtain ⟨w, hload, hreg, -⟩ := (loadRegistersThroughVx u x).1 (by rwa [hbase])
  refine ⟨w, hload, fun r => ?_⟩
  rw [hreg]
  split
  case isTrue hr => rw [hbase, humem, State.read_store_regBlock hmem hrange hr]
  case isFalse => rfl

/-- Settles O43: the next fetch is from the advanced PC, and the two registers stand there. -/
theorem storesAreSeenByTheNextFetch : Obligations.StoresAreSeenByTheNextFetch := by
  intro s t x k k' hmem hstep hdec hk' hk'x hat
  obtain ⟨hpc, u, rfl, ⟨i, hdec', hexec⟩ | ⟨e, hdec', -⟩⟩ := step_next hstep
  · obtain rfl : i = .ldMemVx x := Except.ok.inj (hdec'.symm.trans hdec)
    obtain ⟨hrange, rfl⟩ := exec_ldMemVx_next hexec
    have hkx : k ≤ x := Fin.le_def.2 (by have := Fin.le_def.1 hk'x; omega)
    have hread : ∀ r ≤ x, (s.advance.store s.advance.base (s.advance.regBlock x)).mem.read (s.base + r.val) = s.reg r :=
      fun r hr => State.read_store_regBlock (s := s.advance) hmem hrange hr
    have hpc' : (tick (s.advance.store s.advance.base (s.advance.regBlock x))).pc.toNat = s.base + k.val :=
      (State.advance_pc_toNat hpc).trans hat.symm
    rw [State.fetchWord, wordOfBytes_toNat, hpc', tick_mem, Nat.add_assoc, ← hk', hread k hkx, hread k' hk'x]
  · rw [hdec] at hdec'
    cases hdec'

/-- Settles O55: a load that fits is a store in range, and a longer one is rejected as a whole. -/
theorem loadRomCopiesOrRejects : Obligations.LoadRomCopiesOrRejects := by
  intro s bytes hmem
  refine ⟨fun hfits => ?_, fun hlong => ⟨loadRom_error hlong s, fun glyphs => applyHostOp_loadRom_error hlong glyphs s⟩⟩
  have hrange : Config.romEntry + bytes.length ≤ 0x1000 := by
    rw [Config.romEntry]
    omega
  exact ⟨_, loadRom_ok hfits s, fun k b hb => Memory.read_writeBytes_of_getElem? hmem hrange hb,
    fun a ha => Memory.read_writeBytes_outside hmem hrange ha, sameExcept_store s _ _⟩

/-- Settles O56: the reset stores the font in a reset memory and keeps the sample and the counter. -/
theorem resetCopiesTheFontOfTheBlock : Obligations.ResetCopiesTheFontOfTheBlock := by
  refine ⟨resetWith_defaultFont, fun glyphs s => ?_⟩
  obtain ⟨-, hfont, hzero⟩ := resetWith_mem glyphs
  refine ⟨_, rfl, hfont, hzero, fun p hp => ?_, rfl, rfl⟩
  cases p with
  | mem | keys | draws => exact absurd (by decide) hp
  | i | pc | sp | dt | st | ir => rfl
  | v | stack => exact fun _ => rfl
  | fb => exact fun _ _ => rfl

/-- Settles O54: reset memory lists nothing, so the 80 bytes are those of the font. -/
theorem fontCopyHoldsTheGlyphs : Obligations.FontCopyHoldsTheGlyphs := by
  unfold Obligations.FontCopyHoldsTheGlyphs
  decide

end Sys2Proof.Machine
end

section
/-! PROOFS. Jumps, calls and returns (41_control_flow.md), and the two idle loops (70_reset_and_hazards.md). -/

namespace Sys2Proof.Machine

/-- Settles O25: the jump is one write of PC, with a sum that 16 bits hold. -/
theorem jumpAddsV0WithoutReduction : Obligations.JumpAddsV0WithoutReduction := by
  intro s nnn
  rw [exec_jpV0Addr, ← zextAddr_add_zextByte_toNat]
  exact onlyMovesPc_setPc s _

/-- Settles O27: the push goes on with room on the stack and faults without. -/
theorem callPushesTheReturnAddress : Obligations.CallPushesTheReturnAddress := by
  intro s nnn
  rw [exec_callAddr]
  refine ⟨fun hroom => ?_, fun hfull => pushAndGo_full (by omega) _⟩
  have hgo := pushAndGo_ok hroom (zextAddr nnn)
  obtain ⟨-, hpc, hsp, hstack, frame⟩ := pushAndGo_next hgo
  exact ⟨_, hgo, by rw [hpc, zextAddr_toNat], hsp, hstack, frame⟩

/-- Settles O28: the pop goes on with an entry on the stack and faults without. -/
theorem returnPopsTheReturnAddress : Obligations.ReturnPopsTheReturnAddress := by
  intro s
  rw [exec_ret]
  refine ⟨fun k hk => ?_, popAndGo_empty⟩
  have hgo := popAndGo_ok (s := s) (by omega)
  obtain ⟨j, hj, hpc, hsp, frame⟩ := popAndGo_next hgo
  obtain rfl : j = k := Fin.ext (by omega)
  exact ⟨_, hgo, hpc, hsp, frame⟩

theorem execAll_cons_of_next {i : Instr} {s t : State} (h : exec i s = .next t) (is : List Instr) :
    execAll (i :: is) s = execAll is t := by
  simp only [execAll, h]

/-- A run of two lists is the run of the second from where the first ends. -/
theorem execAll_append_of_next {is : List Instr} {s t : State} (h : execAll is s = .next t) (js : List Instr) :
    execAll (is ++ js) s = execAll js t := by
  induction is generalizing s with
  | nil =>
    cases h
    rfl
  | cons i is ih =>
    cases hexec : exec i s with
    | next u =>
      rw [execAll_cons_of_next hexec] at h
      rw [List.cons_append, execAll_cons_of_next hexec, ih h]
    | fault f => simp only [execAll, hexec] at h; cases h
    | refused r => simp only [execAll, hexec] at h; cases h

/-- `u` is back where the calls began in `s`: PC and SP are restored, the entries in use at `s` are kept, and only the
stack may differ. -/
structure ReturnedTo (s u : State) : Prop where
  pc : u.pc = s.pc
  sp : u.sp = s.sp
  entries : ∀ k : Fin 16, k.val < s.sp.val → u.stackEntry k = s.stackEntry k
  frame : SameExcept [.stack] s u

theorem ReturnedTo.refl (s : State) : ReturnedTo s s := ⟨rfl, rfl, fun _ _ => rfl, SameExcept.refl _ s⟩

/-- One more level: a CALL, the nested run that returns to the state after it, and a RET. -/
theorem ReturnedTo.call_ret {s t u : State} {target : Word} (hcall : pushAndGo target s = .next t)
    (hu : ReturnedTo t u) :
    ∃ v, exec .ret u = .next v ∧ ReturnedTo s v := by
  obtain ⟨hroom, -, htsp, htstack, htframe⟩ := pushAndGo_next hcall
  have husp : u.sp.val = s.sp.val + 1 := by rw [hu.sp, htsp]
  obtain ⟨v, hret, hvpc, hvsp, hvframe⟩ := (returnPopsTheReturnAddress u).1 ⟨s.sp.val, hroom⟩ husp
  have hpc : v.pc = s.pc := by
    rw [hvpc, hu.entries _ (show s.sp.val < t.sp.val by omega), htstack, if_pos rfl]
  have hsp : v.sp = s.sp := Fin.ext hvsp
  have hvstack : ∀ k, v.stackEntry k = u.stackEntry k := hvframe .stack (by decide)
  have frame : SameExcept [.pc, .sp, .stack] s v :=
    (htframe.trans hu.frame (List.Subset.refl _) (by decide)).trans hvframe (List.Subset.refl _) (by decide)
  refine ⟨v, hret, hpc, hsp, fun k hk => ?_, fun p hp => ?_⟩
  · rw [hvstack, hu.entries k (by omega), htstack, if_neg (by omega)]
  · cases p with
    | pc => exact hpc
    | sp => exact hsp
    | stack => exact absurd (by decide) hp
    | _ => exact frame _ (by decide)

/-- Calls that fit on the stack go on, and as many returns go back to where they began. -/
theorem calls_then_returns (targets : List Addr12) (s : State) (hroom : s.sp.val + targets.length ≤ 16) :
    ∃ t, execAll (targets.map Instr.callAddr) s = .next t ∧ t.sp.val = s.sp.val + targets.length ∧
      ∃ u, execAll (List.replicate targets.length Instr.ret) t = .next u ∧ ReturnedTo s u := by
  induction targets generalizing s with
  | nil => exact ⟨s, rfl, rfl, s, rfl, ReturnedTo.refl s⟩
  | cons nnn targets ih =>
    rw [List.length_cons] at hroom
    obtain ⟨s₁, hcall⟩ : ∃ s₁, pushAndGo (zextAddr nnn) s = .next s₁ := ⟨_, pushAndGo_ok (by omega) _⟩
    obtain ⟨-, -, hsp, -, -⟩ := pushAndGo_next hcall
    obtain ⟨t, hcalls, htsp, u, hrets, hu⟩ := ih s₁ (by omega)
    obtain ⟨v, hret, hv⟩ := hu.call_ret hcall
    refine ⟨t, ?_, by rw [htsp, hsp, List.length_cons]; omega, v, ?_, hv⟩
    · rw [List.map_cons, execAll_cons_of_next (exec_callAddr nnn s ▸ hcall), hcalls]
    · rw [List.length_cons, List.replicate_succ', execAll_append_of_next hrets, execAll_cons_of_next hret]
      rfl

/-- Settles O29, by induction on the targets: each level is a call and a return around the rest. -/
theorem nestedCallsReturnInOrder : Obligations.NestedCallsReturnInOrder := by
  intro targets s hroom
  obtain ⟨t, hcalls, htsp, u, hrets, hu⟩ := calls_then_returns targets s hroom
  exact ⟨t, hcalls, htsp, u, hrets, hu.pc, hu.sp, hu.frame⟩

/-- What a step on a sample leaves when it only fetches and ticks, PC back at the instruction. -/
def State.idle (s : State) (keys : Vector Bool 16) : State := tick { s.setKeys keys with ir := s.fetchWord }

theorem sameExcept_idle (s : State) (keys : Vector Bool 16) : SameExcept [.ir, .dt, .st, .keys] s (s.idle keys) := by
  intro p hp
  cases p with
  | ir | dt | st | keys => exact absurd (by decide) hp
  | i | pc | sp | draws => rfl
  | v | stack | mem => exact fun _ => rfl
  | fb => exact fun _ _ => rfl

/-- A run only runs the timers when every step idles in any state with this PC and this fetched word. -/
theorem runSamples_of_idle (samples : List (Vector Bool 16)) (s : State)
    (h : ∀ keys ∈ samples, ∀ s' : State, s'.pc = s.pc → s'.fetchWord = s.fetchWord →
      stepWith keys s' = .next (s'.idle keys)) :
    ∃ t, runSamples samples s = .next t ∧ t.dt.toNat = s.dt.toNat - samples.length ∧
      t.st.toNat = s.st.toNat - samples.length ∧ t.keys = samples.getLastD s.keys ∧
      SameExcept [.ir, .dt, .st, .keys] s t := by
  induction samples generalizing s with
  | nil => exact ⟨s, rfl, rfl, rfl, rfl, SameExcept.refl _ s⟩
  | cons keys samples ih =>
    have hstep := h keys List.mem_cons_self s rfl rfl
    obtain ⟨t, hrun, hdt, hst, hkeys, frame⟩ := ih (s.idle keys) fun keys' hmem => h keys' (List.mem_cons_of_mem _ hmem)
    have hidle : (s.idle keys).dt.toNat = s.dt.toNat - 1 ∧ (s.idle keys).st.toNat = s.st.toNat - 1 :=
      ⟨countDown_toNat s.dt, countDown_toNat s.st⟩
    refine ⟨t, (runSamples_cons_next hstep).trans hrun, ?_, ?_, ?_, ?_⟩
    · rw [hdt, hidle.1, List.length_cons]
      omega
    · rw [hst, hidle.2, List.length_cons]
      omega
    · rw [hkeys, List.getLastD_cons]
      rfl
    · exact (sameExcept_idle s keys).trans frame (List.Subset.refl _) (List.Subset.refl _)

/-- A step idles when its instruction puts PC back and does nothing else. -/
theorem stepWith_idle {keys : Vector Bool 16} {s : State} {i : Instr} (hpc : s.pc.toNat ≤ 0xFFE)
    (hdec : decode s.fetchWord = .ok i)
    (hexec : exec i (s.setKeys keys).advance = .next ((s.setKeys keys).advance.setPc s.pc)) :
    stepWith keys s = .next (s.idle keys) :=
  step_of_exec_next (s := s.setKeys keys) hpc hdec hexec

/-- Settles O30: the jump puts PC back at its own address. -/
theorem jumpToSelfOnlyRunsTheTimers : Obligations.JumpToSelfOnlyRunsTheTimers := by
  intro s nnn hpc hdec hself samples
  refine runSamples_of_idle samples s fun keys _ s' hpc' hfetch => ?_
  refine stepWith_idle (by rwa [hpc']) (by rw [hfetch, hdec]) ?_
  have htarget : zextAddr nnn = s'.pc := BitVec.eq_of_toNat_eq (by rw [zextAddr_toNat, hself, hpc'])
  rw [exec_jpAddr, htarget]

/-- Settles O50: with no key pressed the instruction puts PC back at its own address. -/
theorem keyWaitOnlyRunsTheTimers : Obligations.KeyWaitOnlyRunsTheTimers := by
  intro s x hpc hdec samples hreleased
  refine runSamples_of_idle samples s fun keys hmem s' hpc' hfetch => ?_
  refine stepWith_idle (by rwa [hpc']) (by rw [hfetch, hdec]) ?_
  have hnone : (s'.setKeys keys).advance.leastKey = none := leastKey_none.2 (hreleased keys hmem)
  rw [exec_ldVxK_of_none hnone, State.advance_pc, BitVec.add_sub_cancel, State.setKeys_pc]

end Sys2Proof.Machine
end

section
/-! PROOFS. The flag writers and RND (42_load_alu.md), the sums into I (43_index_memory.md), the keypad and the timers
(45_keypad_timers.md). -/

namespace Sys2Proof.Machine

/-- A result and a flag, in numbers: the flag is the byte of a Boolean that decides it. -/
theorem writesRegisterAndFlag_setResultAndFlag {b : Byte} {c : Bool} {result : Nat} {flag : Prop}
    (hb : b.toNat = result) (hc : c = true ↔ flag) (s : State) (x : Reg) :
    WritesRegisterAndFlag (.next (s.setResultAndFlag x b c)) s x result flag := by
  refine ⟨_, rfl, fun k hx hvf => ?_, fun hx => ?_, fun hflag => ?_, fun hflag => ?_,
    sameExcept_setResultAndFlag s x b c⟩
  · rw [State.reg_setResultAndFlag, if_neg hvf, if_neg hx]
  · rw [State.reg_setResultAndFlag, if_neg hx, if_pos rfl, hb]
  · rw [State.reg_vf_setResultAndFlag, hc.2 hflag]
    rfl
  · rw [State.reg_vf_setResultAndFlag, Bool.eq_false_iff.2 fun h => hflag (hc.1 h)]
    rfl

theorem byte_sub_toNat (a b : Byte) : (a - b).toNat = (a.toNat + 256 - b.toNat) % 256 := by
  have := b.isLt
  rw [BitVec.toNat_sub]
  congr 1
  omega

/-- Settles O33: the three results and flags in numbers. -/
theorem addAndSubtractSetTheFlag : Obligations.AddAndSubtractSetTheFlag := by
  intro s x y
  rw [exec_addVxVy, exec_subVxVy, exec_subnVxVy]
  exact ⟨writesRegisterAndFlag_setResultAndFlag (BitVec.toNat_add _ _) decide_eq_true_iff s x,
    writesRegisterAndFlag_setResultAndFlag (byte_sub_toNat _ _) decide_eq_true_iff s x,
    writesRegisterAndFlag_setResultAndFlag (byte_sub_toNat _ _) decide_eq_true_iff s x⟩

theorem lowBit_iff (a : Byte) : lowBit a = true ↔ a.toNat % 2 = 1 := by
  rw [lowBit, BitVec.getLsbD, Nat.testBit_zero, decide_eq_true_iff]

theorem highBit_iff (a : Byte) : highBit a = true ↔ a.toNat ≥ 128 := by
  have hmsb : highBit a = a.msb := rfl
  rw [hmsb, BitVec.msb_eq_decide, decide_eq_true_iff]

/-- Settles O34: the two results and flags in numbers. -/
theorem shiftsPutTheLostBitInVF : Obligations.ShiftsPutTheLostBitInVF := by
  intro s x
  rw [exec_shrVx, exec_shlVx]
  exact ⟨writesRegisterAndFlag_setResultAndFlag BitVec.toNat_udiv (lowBit_iff _) s x,
    writesRegisterAndFlag_setResultAndFlag (BitVec.toNat_mul _ _) (highBit_iff _) s x⟩

/-- Settles O35: the byte written is the drawn one under the mask, and the draw moves the counter. -/
theorem randomByteIsMasked : Obligations.RandomByteIsMasked := by
  intro s x kk
  refine ⟨_, exec_rndVxByte x kk s, fun r => ?_, ?_, rfl, instructionsWriteOnlyTheirParts _ s _ (exec_rndVxByte x kk s)⟩
  · rw [State.drawn_reg, State.reg_setReg]
    rfl
  · rw [State.drawn_reg, State.reg_setReg, if_pos rfl, BitVec.and_assoc, BitVec.and_not_self]
    exact BitVec.and_zero

/-- Settles O37: the write of I is of the 16-bit sum. -/
theorem addIndexWrapsAtSixteenBits : Obligations.AddIndexWrapsAtSixteenBits := by
  intro s x
  refine ⟨_, exec_addIVx x s, ?_, sameExcept_setI s _⟩
  rw [State.setI_i, BitVec.toNat_add, zextByte_toNat]

/-- The glyph address does not wrap: five times a byte and the base fit 16 bits (R122). -/
theorem glyphAddress_toNat (b : Byte) : (glyphAddress b).toNat = 0x050 + 5 * b.toNat := by
  have := b.isLt
  rw [glyphAddress, BitVec.toNat_add, BitVec.toNat_mul, zextByte_toNat, Config.fontBase, Config.glyphSize,
    BitVec.toNat_ofNat, BitVec.toNat_ofNat]
  omega

/-- Settles O38: the write of I is of the glyph address. -/
theorem loadFontAddressIsFiveTimesTheDigit : Obligations.LoadFontAddressIsFiveTimesTheDigit := by
  intro s x
  exact ⟨_, exec_ldFVx x s, glyphAddress_toNat (s.reg x), sameExcept_setI s _⟩

/-- Settles O48: below 16 the whole register is the key tested, and the skip is on its level. -/
theorem keySkipsTestTheNamedKey : Obligations.KeySkipsTestTheNamedKey := by
  intro s x
  rw [exec_skpVx, exec_sknpVx]
  refine ⟨fun k hk => ?_, fun hlarge => ⟨withKeyIndex_fault (by omega) _, withKeyIndex_fault (by omega) _⟩⟩
  have hindex : (s.reg x).toNat < 16 := hk ▸ k.isLt
  obtain rfl : ⟨(s.reg x).toNat, hindex⟩ = k := Fin.ext hk
  rw [withKeyIndex_ok hindex, withKeyIndex_ok hindex]
  exact ⟨onlyMovesPc_skipIf Iff.rfl s, onlyMovesPc_skipIf (iff_of_eq (Bool.not_eq_true' _)) s⟩

/-- The pressed key below which none is pressed is the least one. -/
theorem leastKey_eq_some {s : State} {k : Fin 16} (hk : s.key k = true) (hlow : ∀ j, j < k → s.key j = false) :
    s.leastKey = some k := by
  cases hleast : s.leastKey with
  | none => exact absurd hk (by rw [leastKey_none.1 hleast k]; decide)
  | some j =>
    obtain ⟨hj, hjlow⟩ := leastKey_some hleast
    rcases lt_trichotomy j k with hlt | rfl | hgt
    · exact absurd hj (by rw [hlow j hlt]; decide)
    · rfl
    · exact absurd hk (by rw [hjlow k hgt]; decide)

/-- Settles O49: with a least key the instruction is one write of V[X], with none one write of PC. -/
theorem keyWaitTakesTheLeastKeyOrRepeats : Obligations.KeyWaitTakesTheLeastKeyOrRepeats := by
  intro s x
  refine ⟨fun k hk hlow => ?_, fun hnone => ?_⟩
  · rw [exec_ldVxK_of_some (leastKey_eq_some hk hlow)]
    exact writesRegister_setReg s x _
  · rw [exec_ldVxK_of_none (leastKey_none.2 hnone)]
    exact onlyMovesPc_setPc s _

/-- Settles O51: each of the three is one write. -/
theorem timerLoadsCopyOneByte : Obligations.TimerLoadsCopyOneByte := by
  intro s x
  rw [exec_ldVxDt, exec_ldDtVx, exec_ldStVx]
  exact ⟨writesRegister_setReg s x s.dt, ⟨_, rfl, rfl, sameExcept_setDt s _⟩, ⟨_, rfl, rfl, sameExcept_setSt s _⟩⟩

end Sys2Proof.Machine
end

section
/-! PROOFS. Sprites and the screen the host reads (44_display.md). -/

namespace Sys2Proof.Machine

/-- The pixels that DRW covers, from its operands and the bytes at I (R131 to R133). -/
def State.drawCovers (s : State) (x y : Reg) (n : Nat) : Fin 32 → Fin 64 → Prop :=
  spriteCovers (s.mem.readBytes s.base n) ((s.reg x).toNat % 64) ((s.reg y).toNat % 32)

/-- The state that a draw in range leaves. -/
def State.afterDraw (s : State) (x y : Reg) (n : Nat) : State :=
  (s.setFb (s.drawCanvas x y n).1).setReg vf (flagByte (s.drawCanvas x y n).2)

theorem exec_drwVxVyN_ok {s : State} {n : Nat} (h : n = 0 ∨ s.base + n ≤ 0x1000) (x y : Reg) :
    exec (.drwVxVyN x y n) s = .next (s.afterDraw x y n) := by
  rw [exec_drwVxVyN, checkRange_ok h]
  rfl

theorem exec_drwVxVyN_next {s t : State} {x y : Reg} {n : Nat} (h : exec (.drwVxVyN x y n) s = .next t) :
    (n = 0 ∨ s.base + n ≤ 0x1000) ∧ t = s.afterDraw x y n := by
  rw [exec_drwVxVyN] at h
  obtain ⟨hrange, hgo⟩ := checkRange_next h
  exact ⟨hrange, (Host.Outcome.next.inj hgo).symm⟩

theorem drawCanvas_spec (s : State) (x y : Reg) (n : Nat) :
    ScanSpec (s.drawCovers x y n) (s.fb, false) (s.drawCanvas x y n) :=
  scanSprite_spec _ _ _ _

section
variable (s : State) (x y : Reg) (n : Nat)

theorem State.pixel_afterDraw_covered {Y : Fin 32} {X : Fin 64} (h : s.drawCovers x y n Y X) :
    (s.afterDraw x y n).pixel Y X = !s.pixel Y X :=
  (drawCanvas_spec s x y n).covered Y X h

theorem State.pixel_afterDraw_untouched {Y : Fin 32} {X : Fin 64} (h : ¬ s.drawCovers x y n Y X) :
    (s.afterDraw x y n).pixel Y X = s.pixel Y X :=
  (drawCanvas_spec s x y n).untouched Y X h

/-- The collision of a draw: a covered pixel that was ON. -/
theorem State.drawCanvas_collision :
    (s.drawCanvas x y n).2 = true ↔ ∃ Y X, s.drawCovers x y n Y X ∧ s.pixel Y X = true := by
  refine (drawCanvas_spec s x y n).collision.trans ?_
  simp only [Bool.false_eq_true, false_or]
  rfl

theorem State.reg_vf_afterDraw : (s.afterDraw x y n).reg vf = flagByte (s.drawCanvas x y n).2 := by
  rw [State.afterDraw, State.reg_setReg, if_pos rfl]

/-- VF after a draw is 1 on a collision and else 0. -/
theorem State.reg_vf_afterDraw_eq_one_iff :
    (s.afterDraw x y n).reg vf = 1 ↔ ∃ Y X, s.drawCovers x y n Y X ∧ s.pixel Y X = true := by
  rw [State.reg_vf_afterDraw, ← State.drawCanvas_collision]
  cases (s.drawCanvas x y n).2 <;> decide

end

/-- Settles O45: the scan's canvas, pixel by pixel and by its collision. -/
theorem drawTogglesTheCoveredPixels : Obligations.DrawTogglesTheCoveredPixels := by
  intro s x y n
  refine ⟨fun hrange => ?_, fun hn hbeyond => ?_⟩
  · have hdraw := exec_drwVxVyN_ok (s := s) (n := n) (by omega) x y
    refine ⟨_, hdraw, fun Y X => s.pixel_afterDraw_covered x y n, fun Y X => s.pixel_afterDraw_untouched x y n,
      (s.reg_vf_afterDraw_eq_one_iff x y n).2, fun hoff => ?_, fun r hr => ?_,
      instructionsWriteOnlyTheirParts _ s _ hdraw⟩
    · have hclear : (s.drawCanvas x y n).2 = false := by
        rw [Bool.eq_false_iff, ne_eq, State.drawCanvas_collision]
        rintro ⟨Y, X, hcov, hon⟩
        exact absurd hon (by rw [hoff Y X hcov]; decide)
      rw [State.reg_vf_afterDraw, hclear]
      rfl
    · exact instructionsWriteOnlyTheirRegisters _ s _ hdraw r (beq_false_of_ne hr)
  · rw [exec_drwVxVyN]
    exact checkRange_fault (by omega) _

/-- Settles O46: the second draw covers the same pixels, toggles each back, and finds ON what was OFF. -/
theorem drawingTwiceRestoresThePixels : Obligations.DrawingTwiceRestoresThePixels := by
  intro s t x y n hdraw hx hy
  obtain ⟨hrange, rfl⟩ := exec_drwVxVyN_next hdraw
  have hcovers : (s.afterDraw x y n).drawCovers x y n = s.drawCovers x y n := by
    unfold State.drawCovers
    rw [hx, hy]
    rfl
  refine ⟨_, exec_drwVxVyN_ok (s := s.afterDraw x y n) hrange x y, fun Y X => ?_, ?_⟩
  · by_cases hcov : s.drawCovers x y n Y X
    · rw [State.pixel_afterDraw_covered _ x y n (hcovers ▸ hcov), State.pixel_afterDraw_covered _ x y n hcov,
        Bool.not_not]
    · rw [State.pixel_afterDraw_untouched _ x y n (hcovers ▸ hcov), State.pixel_afterDraw_untouched _ x y n hcov]
  · rw [State.reg_vf_afterDraw_eq_one_iff, hcovers]
    refine exists_congr fun Y => exists_congr fun X => and_congr_right fun hcov => ?_
    rw [State.pixel_afterDraw_covered _ x y n hcov]
    exact iff_of_eq (Bool.not_eq_true' _)

/-- The pixel that element `j` of a row-major reading is of. -/
def State.pixelOfIndex (s : State) (j : Fin (32 * 64)) : Nat :=
  pixelValue (s.pixel ⟨j.val / 64, by omega⟩ ⟨j.val % 64, by omega⟩)

/-- Element `y * 64 + x` is of row y and column x. -/
theorem State.pixelOfIndex_row_col (s : State) (y : Fin 32) (x : Fin 64) (h : y.val * 64 + x.val < 32 * 64) :
    s.pixelOfIndex ⟨y.val * 64 + x.val, h⟩ = pixelValue (s.pixel y x) := by
  have hrow : (y.val * 64 + x.val) / 64 = y.val := by omega
  have hcol : (y.val * 64 + x.val) % 64 = x.val := by omega
  simp only [State.pixelOfIndex, hrow, hcol]

theorem State.readFb_eq_ofFn (s : State) : s.readFb = List.ofFn s.pixelOfIndex := by
  rw [List.ofFn_mul, State.readFb, List.flatMap_def, List.ofFn_eq_map]
  refine congrArg List.flatten (List.map_congr_left fun y _ => ?_)
  rw [List.ofFn_eq_map]
  exact List.map_congr_left fun x _ => (s.pixelOfIndex_row_col y x _).symm

/-- Settles O47: 2048 elements, and element `y * 64 + x` is that of row y and column x. -/
theorem framebufferIsReadRowMajor : Obligations.FramebufferIsReadRowMajor := by
  intro s
  rw [State.readFb_eq_ofFn]
  refine ⟨List.length_ofFn, fun y x => ?_⟩
  have hlt : y.val * 64 + x.val < 32 * 64 := by omega
  rw [List.getElem?_ofFn, dif_pos hlt, State.pixelOfIndex_row_col]
  rfl

end Sys2Proof.Machine
end
